-- ==== Sys2Proof/Word.lean ====
section
/-! DEFINITION. The one word type of the CA1 ISA: every architectural value is an unsigned 8-bit number
(00_scope.md R6, R9). -/

namespace Sys2Proof

/-- `u8`: an unsigned 8-bit value, 0 to 255 (R9). Registers, memory cells, addresses and opcode bytes all have
this one width (R6). -/
abbrev Byte := BitVec 8

end Sys2Proof
end

