-- ==== Sys2Proof/Machine/AluUnit.lean ====
section
/-! DEFINITION. The block `alu_8bit` (41_alu.md R140): pure functions of the register values. Each computes the exact
integer result of its operation and narrows it once with `trunc8`. All values are unsigned (R141). -/

namespace Sys2Proof.Machine

/-- `trunc8(n)`: the 8-bit value congruent to `n` modulo 256 (00_scope.md R9). -/
def trunc8 (n : Int) : Byte := BitVec.ofInt 8 n

/-- R147. -/
def aluAdd (va vb : Byte) : Byte := trunc8 ((va.toNat : Int) + vb.toNat)

/-- R148. -/
def aluSub (va vb : Byte) : Byte := trunc8 ((va.toNat : Int) - vb.toNat)

/-- R149: the low byte of the product. -/
def aluMul (va vb : Byte) : Byte := trunc8 ((va.toNat : Int) * vb.toNat)

/-- R150, R144: the unsigned quotient, rounded down. `none` is the ALU's "divisor is zero" (R151, 90_conflicts.md
C10), for which no result exists. -/
def aluDiv (va vb : Byte) : Option Byte :=
  if vb.toNat = 0 then none else some (trunc8 ((va.toNat / vb.toNat : Nat) : Int))

/-- R152, R144: the unsigned remainder, or `none` as for `aluDiv`. -/
def aluMod (va vb : Byte) : Option Byte :=
  if vb.toNat = 0 then none
  else some (trunc8 ((va.toNat : Int) - (va.toNat / vb.toNat : Nat) * vb.toNat))

/-- R153. -/
def aluInc (va : Byte) : Byte := trunc8 ((va.toNat : Int) + 1)

/-- R154. -/
def aluDec (va : Byte) : Byte := trunc8 ((va.toNat : Int) - 1)

/-- R156. -/
def aluAnd (va vb : Byte) : Byte := va &&& vb

/-- R157. -/
def aluOr (va vb : Byte) : Byte := va ||| vb

/-- R158. -/
def aluXor (va vb : Byte) : Byte := va ^^^ vb

/-- R159: the bitwise complement of the 8 bits. -/
def aluNot (va : Byte) : Byte := ~~~va

end Sys2Proof.Machine
end

