-- ==== Sys2Proof/Config.lean ====
section
/-! DEFINITION. What an implementation of the core fixes and no step changes: the opcode map `OPMAP` and the
index `SP_IDX` of the stack pointer (00_scope.md R7, 10_state.md R41), with the constants of R6 that reset uses.
The 23 instruction names stand here because `OPMAP` is a map from them. There is no free value: the spec leaves no
result open (40_dispatch.md R125). -/

namespace Sys2Proof

/-- The 23 mnemonics of the instruction set, in the order of 30_encoding.md R90. -/
inductive Mnemonic where
  | ldi | prn | push | pop | call | ret | jmp | jeq | jne | hlt | nop
  | add | sub | mul | div | mod | and | or | xor | inc | dec | not | cmp
  deriving DecidableEq, Repr

/-- Every mnemonic once, in the order of R90. -/
def Mnemonic.all : List Mnemonic :=
  [.ldi, .prn, .push, .pop, .call, .ret, .jmp, .jeq, .jne, .hlt, .nop,
   .add, .sub, .mul, .div, .mod, .and, .or, .xor, .inc, .dec, .not, .cmp]

/-- The four instruction formats of 30_encoding.md R83. -/
inductive Format where
  /-- No operand. -/
  | f0
  /-- One register index. -/
  | f1r
  /-- Two register indices. -/
  | f2rr
  /-- A register index and an 8-bit literal. -/
  | f2ri
  deriving DecidableEq, Repr

/-- An opcode map: one byte for each mnemonic (R91 (a), by the type). Its other two conditions are
`OpMap.Admissible` in Decode.lean. -/
structure OpMap where
  ldi : Byte
  prn : Byte
  push : Byte
  pop : Byte
  call : Byte
  ret : Byte
  jmp : Byte
  jeq : Byte
  jne : Byte
  hlt : Byte
  nop : Byte
  add : Byte
  sub : Byte
  mul : Byte
  div : Byte
  mod : Byte
  and : Byte
  or : Byte
  xor : Byte
  inc : Byte
  dec : Byte
  not : Byte
  cmp : Byte
  deriving DecidableEq, Repr

/-- The configuration of a core (R7). -/
structure Config where
  /-- `SP_IDX`: which general register is the stack pointer (10_state.md R22). -/
  spIdx : Fin 8
  /-- `OPMAP`: which byte selects which instruction (R91). -/
  opmap : OpMap
  deriving DecidableEq, Repr

/-- The default of `SP_IDX` (R7; 92_eei_decisions.md D2). DESIGN CHOICE of the spec, entry 2. -/
def Config.defaultSpIdx : Fin 8 := 7

/-- `SP_INIT`, the reset value of the stack pointer (R6, 10_state.md R40). -/
def Config.spInit : Byte := 0xF4

/-- What a memory cell that `Memory` does not list reads as. DESIGN CHOICE, entry 1, UNSAFE for a claim about
`State.reset` alone: the spec says that memory nobody wrote is arbitrary (20_memory.md R61). 0xFF is an unknown
opcode under every admissible map (30_encoding.md R96), so a run that falls into such cells halts with a fault.
Every content of the 256 cells is still the value of exactly one canonical list, whatever this byte is. -/
def Config.unlistedByte : Byte := 0xFF

end Sys2Proof
end

