-- ==== Sys2Proof/Syntax.lean ====
section
/-! DEFINITION. The instructions: one constructor for each row of spec/opcode_table.json (30_encoding.md R90). -/

namespace Sys2Proof

/-- An instruction with the operand bytes its format uses (R83). A register operand is the whole operand byte as it
was fetched (R87): a byte above 7 is an instruction too, whose meaning is the decode error of 60_exceptions.md R212.
Operand bytes a format does not use are no part of it (R89). -/
inductive Instr where
  /-- `LDI r, literal` (R171). -/
  | ldi (r v : Byte)
  /-- `PRN r` (R173). -/
  | prn (r : Byte)
  /-- `PUSH r` (R175). -/
  | push (r : Byte)
  /-- `POP r` (R178). -/
  | pop (r : Byte)
  /-- `CALL r` (R190). -/
  | call (r : Byte)
  /-- `RET` (R192). -/
  | ret
  /-- `JMP r` (R194). -/
  | jmp (r : Byte)
  /-- `JEQ r` (R196). -/
  | jeq (r : Byte)
  /-- `JNE r` (R198). -/
  | jne (r : Byte)
  /-- `HLT` (R200). -/
  | hlt
  /-- `NOP` (R202). -/
  | nop
  /-- `ADD a, b` (R147). -/
  | add (a b : Byte)
  /-- `SUB a, b` (R148). -/
  | sub (a b : Byte)
  /-- `MUL a, b` (R149). -/
  | mul (a b : Byte)
  /-- `DIV a, b` (R150). -/
  | div (a b : Byte)
  /-- `MOD a, b` (R152). -/
  | mod (a b : Byte)
  /-- `AND a, b` (R156). -/
  | and (a b : Byte)
  /-- `OR a, b` (R157). -/
  | or (a b : Byte)
  /-- `XOR a, b` (R158). -/
  | xor (a b : Byte)
  /-- `INC a` (R153). -/
  | inc (a : Byte)
  /-- `DEC a` (R154). -/
  | dec (a : Byte)
  /-- `NOT a` (R159). -/
  | not (a : Byte)
  /-- `CMP a, b` (R160). -/
  | cmp (a b : Byte)
  deriving DecidableEq, Repr

end Sys2Proof
end

