-- ==== Sys2Proof/WellFormed.lean ====
section
/-! DEFINITION. Which instructions are well formed: every byte used as a register index is 0..7
(30_encoding.md R87). LDI's literal is no register index (R88). -/

namespace Sys2Proof

/-- The operand bytes an instruction uses as register indices, in the order they are checked: operand A, then
operand B (40_dispatch.md R116). -/
def Instr.registerOperands : Instr → List Byte
  | .ldi r _ => [r]
  | .prn r => [r]
  | .push r => [r]
  | .pop r => [r]
  | .call r => [r]
  | .ret => []
  | .jmp r => [r]
  | .jeq r => [r]
  | .jne r => [r]
  | .hlt => []
  | .nop => []
  | .add a b => [a, b]
  | .sub a b => [a, b]
  | .mul a b => [a, b]
  | .div a b => [a, b]
  | .mod a b => [a, b]
  | .and a b => [a, b]
  | .or a b => [a, b]
  | .xor a b => [a, b]
  | .inc a => [a]
  | .dec a => [a]
  | .not a => [a]
  | .cmp a b => [a, b]

/-- Every register operand names a register (R87). -/
def WellFormed (i : Instr) : Bool :=
  i.registerOperands.all fun r => decide (r.toNat < 8)

/-- The register operand that BadRegisterIndex reports: the first one above 7 (R116, 60_exceptions.md R212). -/
def Instr.firstBadIndex (i : Instr) : Option Byte :=
  i.registerOperands.find? fun r => decide (7 < r.toNat)

end Sys2Proof
end

