-- ==== Sys2Proof/Decode.lean ====
section
/-! DEFINITION. The encoding: formats and operand counts (30_encoding.md R83, R90), the opcode map and its
conditions (R91), the default map (R92), the decoder (R93) and, after it, the encoder. Both take the opcode map as
an argument. -/

namespace Sys2Proof

/-- How many operand bytes a format has (R83, R90). -/
def Format.operandCount : Format → Nat
  | .f0 => 0
  | .f1r => 1
  | .f2rr => 2
  | .f2ri => 2

/-- The format of each instruction (R83, R90). -/
def Mnemonic.format : Mnemonic → Format
  | .ldi => .f2ri
  | .prn => .f1r
  | .push => .f1r
  | .pop => .f1r
  | .call => .f1r
  | .ret => .f0
  | .jmp => .f1r
  | .jeq => .f1r
  | .jne => .f1r
  | .hlt => .f0
  | .nop => .f0
  | .add => .f2rr
  | .sub => .f2rr
  | .mul => .f2rr
  | .div => .f2rr
  | .mod => .f2rr
  | .and => .f2rr
  | .or => .f2rr
  | .xor => .f2rr
  | .inc => .f1r
  | .dec => .f1r
  | .not => .f1r
  | .cmp => .f2rr

/-- `IR[7:6]`, the operand-count field of an opcode byte (R81). -/
def opcodeCount (op : Byte) : Nat := (op.extractLsb' 6 2).toNat

/-- `OPMAP(m)` (R91). -/
def OpMap.code (om : OpMap) : Mnemonic → Byte
  | .ldi => om.ldi
  | .prn => om.prn
  | .push => om.push
  | .pop => om.pop
  | .call => om.call
  | .ret => om.ret
  | .jmp => om.jmp
  | .jeq => om.jeq
  | .jne => om.jne
  | .hlt => om.hlt
  | .nop => om.nop
  | .add => om.add
  | .sub => om.sub
  | .mul => om.mul
  | .div => om.div
  | .mod => om.mod
  | .and => om.and
  | .or => om.or
  | .xor => om.xor
  | .inc => om.inc
  | .dec => om.dec
  | .not => om.not
  | .cmp => om.cmp

/-- The conditions R91 puts on an opcode map beside totality: (b) no two mnemonics get the same byte, and (c) bits
7:6 of each byte are the operand count of its instruction. -/
abbrev OpMap.Admissible (om : OpMap) : Prop :=
  (Mnemonic.all.map om.code).Nodup ∧ ∀ m ∈ Mnemonic.all, opcodeCount (om.code m) = m.format.operandCount

/-- The default `OPMAP` (R92). These numbers are the spec's own choice (92_eei_decisions.md D1), entry 2. -/
def OpMap.standard : OpMap where
  nop := 0b00000000
  hlt := 0b00000001
  ret := 0b00000010
  prn := 0b01000000
  push := 0b01000001
  pop := 0b01000010
  call := 0b01000011
  jmp := 0b01000100
  jeq := 0b01000101
  jne := 0b01000110
  inc := 0b01010000
  dec := 0b01010001
  not := 0b01010010
  ldi := 0b10000000
  add := 0b10010000
  sub := 0b10010001
  mul := 0b10010010
  div := 0b10010011
  mod := 0b10010100
  and := 0b10010101
  or := 0b10010110
  xor := 0b10010111
  cmp := 0b10011000

/-- The configuration with the spec's defaults (00_scope.md R7). -/
def Config.standard : Config where
  spIdx := Config.defaultSpIdx
  opmap := OpMap.standard

/-- `decode(IR)`: the mnemonic whose opcode is the byte, compared on all 8 bits, or `none` for the spec's `absent`
(R84, R93). Under an admissible map there is at most one. -/
def OpMap.decode (om : OpMap) (op : Byte) : Option Mnemonic :=
  Mnemonic.all.find? fun m => decide (om.code m = op)

/-- The instruction that a mnemonic makes of the two operand bytes the engine always reads: a format takes the bytes
it lists and ignores the others (R86, R89). -/
def Mnemonic.toInstr (m : Mnemonic) (opA opB : Byte) : Instr :=
  match m with
  | .ldi => .ldi opA opB
  | .prn => .prn opA
  | .push => .push opA
  | .pop => .pop opA
  | .call => .call opA
  | .ret => .ret
  | .jmp => .jmp opA
  | .jeq => .jeq opA
  | .jne => .jne opA
  | .hlt => .hlt
  | .nop => .nop
  | .add => .add opA opB
  | .sub => .sub opA opB
  | .mul => .mul opA opB
  | .div => .div opA opB
  | .mod => .mod opA opB
  | .and => .and opA opB
  | .or => .or opA opB
  | .xor => .xor opA opB
  | .inc => .inc opA
  | .dec => .dec opA
  | .not => .not opA
  | .cmp => .cmp opA opB

/-- Why a list of bytes is no instruction. -/
inductive Rejection where
  /-- The first byte is no opcode (R94); the byte is the one UnknownOpcode reports. -/
  | unknownOpcode (op : Byte)
  /-- The list ends before the instruction does. Never so in memory, where addresses wrap (R80). -/
  | truncated
  deriving DecidableEq, Repr

/-- Reading one instruction off the front of a list of bytes: the instruction and the bytes that follow it, or a
rejection by name. -/
inductive Decoded where
  | instr (i : Instr) (rest : List Byte)
  | rejected (why : Rejection)
  deriving DecidableEq, Repr

/-- The bytes after the opcode of `m`, split by its format (R83). -/
def decodeOperands (m : Mnemonic) (bytes : List Byte) : Decoded :=
  match m.format, bytes with
  | .f0, rest => .instr (m.toInstr 0 0) rest
  | .f1r, a :: rest => .instr (m.toInstr a 0) rest
  | .f2rr, a :: b :: rest => .instr (m.toInstr a b) rest
  | .f2ri, a :: b :: rest => .instr (m.toInstr a b) rest
  | _, _ => .rejected .truncated

/-- The decoder on a list of bytes, lowest address first (R80, R93). Total. -/
def decode (om : OpMap) : List Byte → Decoded
  | [] => .rejected .truncated
  | op :: rest =>
    match om.decode op with
    | none => .rejected (.unknownOpcode op)
    | some m => decodeOperands m rest

/-- The three bytes of a word of the opcode table: byte 0 is the first in memory, and every bit above `nbits` is 0
(no instruction is longer than three bytes, R80). -/
def tableBytes (nbits w : Nat) : Byte × Byte × Byte :=
  let v := w % 2 ^ nbits
  (BitVec.ofNat 8 v, BitVec.ofNat 8 (v / 256), BitVec.ofNat 8 (v / 65536))

/-- The instruction the decoder reads from a word numbered as spec/opcode_table.json numbers it, under the default
map that table is written with. -/
def decodeTableWord (nbits w : Nat) : Option Instr :=
  let (b0, b1, b2) := tableBytes nbits w
  match decode OpMap.standard [b0, b1, b2] with
  | .instr i _ => some i
  | .rejected _ => none

/-! ### The encoder -/

/-- The mnemonic of an instruction. -/
def Instr.mnemonic : Instr → Mnemonic
  | .ldi _ _ => .ldi
  | .prn _ => .prn
  | .push _ => .push
  | .pop _ => .pop
  | .call _ => .call
  | .ret => .ret
  | .jmp _ => .jmp
  | .jeq _ => .jeq
  | .jne _ => .jne
  | .hlt => .hlt
  | .nop => .nop
  | .add _ _ => .add
  | .sub _ _ => .sub
  | .mul _ _ => .mul
  | .div _ _ => .div
  | .mod _ _ => .mod
  | .and _ _ => .and
  | .or _ _ => .or
  | .xor _ _ => .xor
  | .inc _ => .inc
  | .dec _ => .dec
  | .not _ => .not
  | .cmp _ _ => .cmp

/-- The operand bytes of an instruction, operand A first (R83). -/
def Instr.operandBytes : Instr → List Byte
  | .ldi r v => [r, v]
  | .prn r => [r]
  | .push r => [r]
  | .pop r => [r]
  | .call r => [r]
  | .ret => []
  | .jmp r => [r]
  | .jeq r => [r]
  | .jne r => [r]
  | .hlt => []
  | .nop => []
  | .add a b => [a, b]
  | .sub a b => [a, b]
  | .mul a b => [a, b]
  | .div a b => [a, b]
  | .mod a b => [a, b]
  | .and a b => [a, b]
  | .or a b => [a, b]
  | .xor a b => [a, b]
  | .inc a => [a]
  | .dec a => [a]
  | .not a => [a]
  | .cmp a b => [a, b]

/-- The operand byte that names register `r` (R87). -/
def regByte (r : Fin 8) : Byte := BitVec.ofNat 8 r.val

/-- The bytes of an instruction, lowest address first: the opcode, then its operands (R80, R83). -/
def encode (om : OpMap) (i : Instr) : List Byte :=
  om.code i.mnemonic :: i.operandBytes

end Sys2Proof
end

