-- ==== Sys2Proof/Machine/State.lean ====
section
/-! DEFINITION. The state of the machine (10_state.md, the tuple at its head), the reasons a step can stop, and the
state after reset (10_state.md R40). -/

namespace Sys2Proof.Machine

/-- Why a step could stop with a fault: no constructor, because none exists. The spec's three exceptions leave an
orderly, fully defined halted state (60_exceptions.md R219) and every non-halted state has a successor
(40_dispatch.md R125), so each is a next state and nothing raises a fault. Safe and unsafe do not arise. -/
inductive Fault where
  deriving DecidableEq, Repr

/-- Why a step could decline to give an instruction a meaning. -/
inductive Refusal where
  /-- Raised by an arm of `exec` whose instruction has no meaning yet. No arm raises it: all 23 instructions have
  their meaning. It would be safe. -/
  | notModelled (mnemonic : String)
  deriving DecidableEq, Repr

/-- The cause codes of 10_state.md R35. Codes 5 to 7 are never used, so they have no name. -/
inductive Cause where
  /-- 0, NONE: not halted. -/
  | none
  /-- 1, HLT: the normal end of a program. -/
  | hlt
  /-- 2, UNKNOWN_OPCODE. -/
  | unknownOpcode
  /-- 3, ARITHMETIC. -/
  | arithmetic
  /-- 4, BAD_REGISTER_INDEX. -/
  | badRegisterIndex
  deriving DecidableEq, Repr

/-- The external memory `M` (20_memory.md R50): the cells that differ from `Config.unlistedByte`, by rising address
(`Memory.wf` in Machine/Memory.lean). -/
abbrev Memory := List Host.Cell

/-- The whole state of the core and its memory, with the configuration no step changes. -/
structure State where
  /-- `SP_IDX` and `OPMAP` (00_scope.md R7, 10_state.md R41; entry 2). -/
  cfg : Config
  /-- The general registers R0 to R7 (10_state.md R20). One of them is SP (R22). -/
  x : Vector Byte 8
  /-- The program counter (10_state.md R25). -/
  pc : Byte
  /-- The instruction register (10_state.md R28). -/
  ir : Byte
  /-- The flags register: E bit 0, G bit 1, L bit 2 (10_state.md R30). -/
  fl : Byte
  /-- Run status: the core takes no step (10_state.md R34, R37). -/
  halted : Bool
  /-- Run status: why the core halted (10_state.md R35). -/
  cause : Cause
  /-- Run status: the value reported with the cause (10_state.md R35). -/
  info : Byte
  /-- Everything PRN has emitted since reset, oldest first (10_state.md R38). -/
  out : List Byte
  /-- The memory (20_memory.md R50, R51). -/
  mem : Memory
  deriving DecidableEq, Repr

/-- The state at the start of a run of a core with configuration `cfg` whose memory holds `memInit`: 10_state.md R40
with both parameters left open (00_scope.md R7). -/
def State.initial (cfg : Config) (memInit : Memory) : State where
  cfg := cfg
  x := (Vector.replicate 8 0).set cfg.spIdx Config.spInit
  pc := 0
  ir := 0
  fl := 0
  halted := false
  cause := .none
  info := 0
  out := []
  mem := memInit

/-- The machine right after reset: R40 under the default configuration (entry 2), with no memory cell listed
(entry 1). -/
def State.reset : State := State.initial Config.standard []

end Sys2Proof.Machine
end

