-- ==== Sys2Proof/Machine/Memory.lean ====
section
/-! DEFINITION. The memory: 256 cells of one byte, held as a canonical list (20_memory.md R50, R57). An access takes
an 8-bit address, so none is out of range and none faults (R53). -/

namespace Sys2Proof.Machine

/-- The value of the cell at a numeric address: the listed one, else `Config.unlistedByte` (entry 1). -/
def Memory.lookup : Memory → Nat → Byte
  | [], _ => Config.unlistedByte
  | (b, w) :: rest, a => if a = b then w else Memory.lookup rest a

/-- Setting the cell at a numeric address and keeping the list canonical: addresses rising, no cell listed that
holds what an unlisted one reads as. -/
def Memory.update : Memory → Nat → Byte → Memory
  | [], a, v => if v = Config.unlistedByte then [] else [(a, v)]
  | (b, w) :: rest, a, v =>
    if a < b then
      if v = Config.unlistedByte then (b, w) :: rest else (a, v) :: (b, w) :: rest
    else if a = b then
      if v = Config.unlistedByte then rest else (a, v) :: rest
    else (b, w) :: Memory.update rest a v

/-- `MemRead(a, 1)` (R57). -/
def Memory.read (m : Memory) (a : Byte) : Byte := Memory.lookup m a.toNat

/-- `MemWrite(a, 1, v)` (R57). -/
def Memory.write (m : Memory) (a v : Byte) : Memory := Memory.update m a.toNat v

/-- The canonical form: addresses strictly rising and inside the 256 cells, no entry equal to what an unlisted
address reads as. -/
abbrev Memory.wf (m : Memory) : Prop :=
  m.Pairwise (fun c d => c.1 < d.1) ∧ ∀ c ∈ m, c.1 < 256 ∧ c.2 ≠ Config.unlistedByte

end Sys2Proof.Machine
end

