-- ==== Sys2Proof/Machine/Ops.lean ====
section
/-! DEFINITION. The named operations over the state that the meanings are written in: registers, memory, output,
fetching, taking an exception, stopping, and the PC update. -/

namespace Sys2Proof.Machine

/-! ### Registers -/

/-- Reading `x[r]` (00_scope.md R10). No register is hard-wired (10_state.md R21). -/
def State.reg (s : State) (r : Fin 8) : Byte := s.x[r]

/-- `x[r] <- v`. -/
def State.writeReg (r : Fin 8) (v : Byte) (s : State) : State := { s with x := s.x.set r v }

/-- `SP`, that is `x[SP_IDX]` (10_state.md R22). -/
def State.sp (s : State) : Byte := s.reg s.cfg.spIdx

/-- `x[SP_IDX] <- trunc8(x[SP_IDX] - 1)`, by the ALU's DEC (41_alu.md R155). -/
def State.decSp (s : State) : State := s.writeReg s.cfg.spIdx (aluDec s.sp)

/-- `x[SP_IDX] <- trunc8(x[SP_IDX] + 1)`, by the ALU's INC (41_alu.md R155). -/
def State.incSp (s : State) : State := s.writeReg s.cfg.spIdx (aluInc s.sp)

/-! ### Memory and the output port -/

/-- `MemRead(a, 1)` (20_memory.md R57). It changes nothing (R58). -/
def State.readByte (s : State) (a : Byte) : Byte := s.mem.read a

/-- `MemWrite(a, 1, v)` (20_memory.md R57). -/
def State.writeByte (a v : Byte) (s : State) : State := { s with mem := s.mem.write a v }

/-- `Emit(v)`: `out <- out ++ [v]` (00_scope.md R11, 10_state.md R38). -/
def State.emit (v : Byte) (s : State) : State := { s with out := s.out ++ [v] }

/-! ### Fetching -/

/-- Stage 1: `IR <- MemRead(PC, 1)` (40_dispatch.md R111). -/
def State.fetch (s : State) : State := { s with ir := s.readByte s.pc }

/-- Stage 3, operand A: the byte at `trunc8(PC + 1)` (40_dispatch.md R114, 10_state.md R26). -/
def State.operandA (s : State) : Byte := s.readByte (trunc8 ((s.pc.toNat : Int) + 1))

/-- Stage 3, operand B: the byte at `trunc8(PC + 2)`. -/
def State.operandB (s : State) : Byte := s.readByte (trunc8 ((s.pc.toNat : Int) + 2))

/-! ### Exceptions and the normal halt -/

/-- The three exceptions of 60_exceptions.md R210, each with the value it reports. -/
inductive Exn where
  /-- Stage 2: the byte that is no opcode (R211). -/
  | unknownOpcode (op : Byte)
  /-- Stage 3b: the operand byte that is no register index (R212). -/
  | badRegisterIndex (r : Byte)
  /-- Stage 4: the divisor, which is 0 (R213). -/
  | arithmeticFault (divisor : Byte)
  deriving DecidableEq, Repr

/-- `code(X)` as a name (10_state.md R35). -/
def Exn.cause : Exn → Cause
  | .unknownOpcode _ => .unknownOpcode
  | .badRegisterIndex _ => .badRegisterIndex
  | .arithmeticFault _ => .arithmetic

/-- The value recorded in `info` (10_state.md R35). -/
def Exn.info : Exn → Byte
  | .unknownOpcode op => op
  | .badRegisterIndex r => r
  | .arithmeticFault d => d

/-- The 3 bits of the status output `cause` (10_state.md R35). -/
def Cause.code : Cause → BitVec 3
  | .none => 0
  | .hlt => 1
  | .unknownOpcode => 2
  | .arithmetic => 3
  | .badRegisterIndex => 4

/-- Halting with a cause and a value (10_state.md R34). -/
def State.halt (c : Cause) (v : Byte) (s : State) : State :=
  { s with halted := true, cause := c, info := v }

/-- Taking an exception: `raise X(v)` (00_scope.md R11). "Trap entry" is a halt: nothing is saved and control goes
nowhere (60_exceptions.md R218). There is no return from an exception (R221), so no operation stands beside this
one. -/
def State.raise (e : Exn) (s : State) : State := s.halt e.cause e.info

/-- `stop()`, the normal halt of HLT (00_scope.md R11). -/
def State.stop (s : State) : State := s.halt .hlt 0

/-! ### Stage 5 -/

/-- The default advance, `trunc8(PC + 1 + IR[7:6])` (40_dispatch.md R121). -/
def State.defaultNext (s : State) : Byte := trunc8 ((s.pc.toNat : Int) + 1 + opcodeCount s.ir)

/-- Stage 5, the only write to PC: the explicit next PC if the handler produced one, else the default advance
(40_dispatch.md R121). `some 0` is a target like any other (R123). -/
def State.pcUpdate (nextpc : Option Byte) (s : State) : State :=
  match nextpc with
  | some t => { s with pc := t }
  | none => { s with pc := s.defaultNext }

end Sys2Proof.Machine
end

