-- ==== Sys2Proof/Machine/Operands.lean ====
section
/-! DEFINITION. Stage 3b, the operand check, for each operand form (40_dispatch.md R116). A handler gets its register
indices as `Fin 8`, so it need not repeat the check (R117). After the handler an instruction always has a next
state: the check's failure is an exception that is taken (60_exceptions.md R212), not a stop of the model. -/

namespace Sys2Proof.Machine

/-- The register an operand byte names: the whole byte, valid when it is 0..7, no bit masked off
(30_encoding.md R87). -/
def regIndex (b : Byte) : Option (Fin 8) :=
  if h : b.toNat < 8 then some ⟨b.toNat, h⟩ else none

/-- Formats F1R and F2RI: operand A is a register index. -/
def withReg (a : Byte) (s : State) (handler : Fin 8 → State) : Host.Outcome State Fault Refusal :=
  match regIndex a with
  | none => .next (s.raise (.badRegisterIndex a))
  | some ra => .next (handler ra)

/-- Format F2RR: operands A and B are register indices, A is checked first. -/
def withRegs (a b : Byte) (s : State) (handler : Fin 8 → Fin 8 → State) :
    Host.Outcome State Fault Refusal :=
  match regIndex a with
  | none => .next (s.raise (.badRegisterIndex a))
  | some ra => withReg b s (handler ra)

/-- The handlers of the two-operand ALU instructions that always have a result: both inputs are read, then `x[a]` is
written, then PC advances (41_alu.md R145, R146). -/
def binaryAlu (f : Byte → Byte → Byte) (ra rb : Fin 8) (s : State) : State :=
  (s.writeReg ra (f (s.reg ra) (s.reg rb))).pcUpdate none

/-- The handlers of INC, DEC and NOT (41_alu.md R146). -/
def unaryAlu (f : Byte → Byte) (ra : Fin 8) (s : State) : State :=
  (s.writeReg ra (f (s.reg ra))).pcUpdate none

/-- The handlers of DIV and MOD: without a result the arithmetic fault is taken, `x[a]` is not written, and stage 5
runs all the same (41_alu.md R151, 40_dispatch.md R122). -/
def divisionAlu (f : Byte → Byte → Option Byte) (ra rb : Fin 8) (s : State) : State :=
  match f (s.reg ra) (s.reg rb) with
  | some v => (s.writeReg ra v).pcUpdate none
  | none => (s.raise (.arithmeticFault (s.reg rb))).pcUpdate none

end Sys2Proof.Machine
end

