-- ==== Sys2Proof/Machine/Arith.lean ====
section
/-! DEFINITION. The arithmetic instructions ADD, SUB, MUL, DIV, MOD, INC, DEC (41_alu.md). None sets a flag (R142). -/

namespace Sys2Proof.Machine

/-- ADD (R147): `x[a] <- trunc8(x[a] + x[b])`. -/
def execAdd (a b : Byte) (s : State) : Host.Outcome State Fault Refusal :=
  withRegs a b s fun ra rb => binaryAlu aluAdd ra rb s

/-- SUB (R148): `x[a] <- trunc8(x[a] - x[b])`. -/
def execSub (a b : Byte) (s : State) : Host.Outcome State Fault Refusal :=
  withRegs a b s fun ra rb => binaryAlu aluSub ra rb s

/-- MUL (R149): `x[a] <- trunc8(x[a] * x[b])`. -/
def execMul (a b : Byte) (s : State) : Host.Outcome State Fault Refusal :=
  withRegs a b s fun ra rb => binaryAlu aluMul ra rb s

/-- DIV (R150): the unsigned quotient of `x[a]` by `x[b]` into `x[a]`, or the arithmetic fault of R151. -/
def execDiv (a b : Byte) (s : State) : Host.Outcome State Fault Refusal :=
  withRegs a b s fun ra rb => divisionAlu aluDiv ra rb s

/-- MOD (R152): the unsigned remainder of `x[a]` by `x[b]` into `x[a]`, or the arithmetic fault of R151. -/
def execMod (a b : Byte) (s : State) : Host.Outcome State Fault Refusal :=
  withRegs a b s fun ra rb => divisionAlu aluMod ra rb s

/-- INC (R153): `x[a] <- trunc8(x[a] + 1)`. -/
def execInc (a : Byte) (s : State) : Host.Outcome State Fault Refusal :=
  withReg a s fun ra => unaryAlu aluInc ra s

/-- DEC (R154): `x[a] <- trunc8(x[a] - 1)`. -/
def execDec (a : Byte) (s : State) : Host.Outcome State Fault Refusal :=
  withReg a s fun ra => unaryAlu aluDec ra s

end Sys2Proof.Machine
end

