-- ==== Sys2Proof/Machine/Flags.lean ====
section
/-! DEFINITION. The flags register FL: its three bits, the mask a comparison selects, and the one way FL is ever
written (10_state.md R30, R31; 41_alu.md R160). -/

namespace Sys2Proof.Machine

/-- Equal, bit 0 (R30). -/
def flagE : Byte := 0b00000001

/-- Greater-Than, bit 1 (R30). -/
def flagG : Byte := 0b00000010

/-- Less-Than, bit 2 (R30). -/
def flagL : Byte := 0b00000100

/-- The one bit a comparison of `va` with `vb` selects, on unsigned values (R160, R141). -/
def cmpMask (va vb : Byte) : Byte :=
  if va.toNat = vb.toNat then flagE
  else if vb.toNat < va.toNat then flagG
  else flagL

/-- `FL.E` (00_scope.md R10). Only JEQ and JNE read it (10_state.md R32). -/
abbrev State.flE (s : State) : Bool := s.fl.getLsbD 0

/-- `FL.G`. No instruction reads it (R32). -/
abbrev State.flG (s : State) : Bool := s.fl.getLsbD 1

/-- `FL.L`. No instruction reads it (R32). -/
abbrev State.flL (s : State) : Bool := s.fl.getLsbD 2

/-- ORing a mask into FL. No bit is ever cleared (R31; 90_conflicts.md C1). -/
def State.orFlags (mask : Byte) (s : State) : State := { s with fl := s.fl ||| mask }

end Sys2Proof.Machine
end

