-- ==== Sys2Proof/Machine/Control.lean ====
section
/-! DEFINITION. The control transfers CALL, RET, JMP, JEQ, JNE and the machine control instructions HLT and NOP
(43_control.md). A transfer sets the next PC and the PC update writes it (R195). -/

namespace Sys2Proof.Machine

/-- CALL (R190): the next PC is `x[r]`. Nothing is pushed. -/
def execCall (r : Byte) (s : State) : Host.Outcome State Fault Refusal :=
  withReg r s fun rr => s.pcUpdate (some (s.reg rr))

/-- RET (R192): the byte at SP is the next PC, and SP goes up by one. It pops whatever is there (R193). -/
def execRet (s : State) : Host.Outcome State Fault Refusal :=
  .next (s.incSp.pcUpdate (some (s.readByte s.sp)))

/-- JMP (R194): the next PC is `x[r]`. -/
def execJmp (r : Byte) (s : State) : Host.Outcome State Fault Refusal :=
  withReg r s fun rr => s.pcUpdate (some (s.reg rr))

/-- JEQ (R196): the next PC is `x[r]` if FL.E is 1. The register operand is checked either way. -/
def execJeq (r : Byte) (s : State) : Host.Outcome State Fault Refusal :=
  withReg r s fun rr => s.pcUpdate (if s.flE then some (s.reg rr) else none)

/-- JNE (R198): the next PC is `x[r]` if FL.E is 0. -/
def execJne (r : Byte) (s : State) : Host.Outcome State Fault Refusal :=
  withReg r s fun rr => s.pcUpdate (if s.flE then none else some (s.reg rr))

/-- HLT (R200): `stop()`. Stage 5 runs in this step too (40_dispatch.md R122). -/
def execHlt (s : State) : Host.Outcome State Fault Refusal :=
  .next (s.stop.pcUpdate none)

/-- NOP (R202): nothing but the default advance. -/
def execNop (s : State) : Host.Outcome State Fault Refusal :=
  .next (s.pcUpdate none)

end Sys2Proof.Machine
end

