-- ==== Sys2Proof/Machine/DataStack.lean ====
section
/-! DEFINITION. The instructions that move data: LDI, PRN, PUSH, POP (42_data_stack_output.md). -/

namespace Sys2Proof.Machine

/-- LDI (R171): `x[r]` becomes the literal, as fetched. The literal is never checked. -/
def execLdi (r v : Byte) (s : State) : Host.Outcome State Fault Refusal :=
  withReg r s fun rr => (s.writeReg rr v).pcUpdate none

/-- PRN (R173): `Emit(x[r])`. -/
def execPrn (r : Byte) (s : State) : Host.Outcome State Fault Refusal :=
  withReg r s fun rr => (s.emit (s.reg rr)).pcUpdate none

/-- The statements of PUSH in the order R175 writes them: SP goes down by one, then `x[r]`, read after that, is stored
at the new SP. For `r = SP_IDX` the byte stored is therefore the new SP (R176). -/
def pushReg (r : Fin 8) (s : State) : State :=
  let s1 := s.decSp
  s1.writeByte s1.sp (s1.reg r)

/-- The statements of POP in the order R178 writes them: `x[r]` gets the byte at the old SP, then `x[SP_IDX]`, read
after that, goes up by one. For `r = SP_IDX` SP therefore ends one above the byte read (R179; entry 5). -/
def popReg (r : Fin 8) (s : State) : State :=
  (s.writeReg r (s.readByte s.sp)).incSp

/-- PUSH (R175, R176). It never fails and never checks where it writes (R177). -/
def execPush (r : Byte) (s : State) : Host.Outcome State Fault Refusal :=
  withReg r s fun rr => (pushReg rr s).pcUpdate none

/-- POP (R178, R179). It never fails (R180). -/
def execPop (r : Byte) (s : State) : Host.Outcome State Fault Refusal :=
  withReg r s fun rr => (popReg rr s).pcUpdate none

end Sys2Proof.Machine
end

