-- ==== Sys2Proof/Machine/Logic.lean ====
section
/-! DEFINITION. The logic instructions AND, OR, XOR, NOT and the comparison CMP (41_alu.md). -/

namespace Sys2Proof.Machine

/-- AND (R156): `x[a] <- x[a] AND x[b]`. -/
def execAnd (a b : Byte) (s : State) : Host.Outcome State Fault Refusal :=
  withRegs a b s fun ra rb => binaryAlu aluAnd ra rb s

/-- OR (R157): `x[a] <- x[a] OR x[b]`. -/
def execOr (a b : Byte) (s : State) : Host.Outcome State Fault Refusal :=
  withRegs a b s fun ra rb => binaryAlu aluOr ra rb s

/-- XOR (R158): `x[a] <- x[a] XOR x[b]`. -/
def execXor (a b : Byte) (s : State) : Host.Outcome State Fault Refusal :=
  withRegs a b s fun ra rb => binaryAlu aluXor ra rb s

/-- NOT (R159): `x[a]` is replaced by its bitwise complement. -/
def execNot (a : Byte) (s : State) : Host.Outcome State Fault Refusal :=
  withReg a s fun ra => unaryAlu aluNot ra s

/-- CMP (R160): the bit of the relation between `x[a]` and `x[b]` is ORed into FL. No register is written. -/
def execCmp (a b : Byte) (s : State) : Host.Outcome State Fault Refusal :=
  withRegs a b s fun ra rb => (s.orFlags (cmpMask (s.reg ra) (s.reg rb))).pcUpdate none

end Sys2Proof.Machine
end

