-- ==== Sys2Proof/Machine/Cycle.lean ====
section
/-! DEFINITION. One step of the core, stage by stage (40_dispatch.md R110), and the placing of a word where the next
step fetches. -/

namespace Sys2Proof.Machine

/-- `step()` of R110. A halted core takes no step (R126, 10_state.md R37). An unknown opcode ends the step at decode,
before any operand is read (R112). Otherwise the two operand bytes are read, whatever the format (R114), and the
instruction runs (`exec`: stages 3b, 4 and 5). The exceptions are next states (60_exceptions.md R219). -/
def cycle (s : State) : Host.Outcome State Fault Refusal :=
  if s.halted then .next s
  else
    match s.cfg.opmap.decode s.fetch.ir with
    | none => .next (s.fetch.raise (.unknownOpcode s.fetch.ir))
    | some m => exec (m.toInstr s.fetch.operandA s.fetch.operandB) s.fetch

/-- A running core: a halted one is set going again, another is as it was. -/
def State.awake (s : State) : State :=
  if s.halted then { s with halted := false, cause := .none, info := 0 } else s

/-- Three bytes stored at `PC`, `PC + 1`, `PC + 2` (mod 256), where a step reads its instruction (R111, R114). -/
def State.storeAtPc (bytes : Byte × Byte × Byte) (s : State) : State :=
  ((s.writeByte s.pc bytes.1).writeByte (trunc8 ((s.pc.toNat : Int) + 1)) bytes.2.1).writeByte
    (trunc8 ((s.pc.toNat : Int) + 2)) bytes.2.2

/-- The state whose next step runs a word of spec/opcode_table.json: the core is not halted, its opcode map is the one
the table is written with, and the word's bytes stand at PC (entry 4). -/
def State.placeWord (s : State) (nbits w : Nat) : State :=
  State.storeAtPc (tableBytes nbits w) { s.awake with cfg.opmap := OpMap.standard }

end Sys2Proof.Machine
end

