-- ==== Sys2Proof/Machine/Step.lean ====
section
/-! DEFINITION. The machine's one step, and the placing of an instruction word where it fetches. -/

namespace Sys2Proof.Machine

/-- One step of the core per trigger (40_dispatch.md R110, R126). -/
def step (s : State) : Host.Outcome State Fault Refusal := cycle s

/-- `s` with a word of the opcode table stored where `step` fetches its next instruction. -/
def State.withFetchWord (s : State) (nbits w : Nat) : State := s.placeWord nbits w

end Sys2Proof.Machine
end

