-- ==== Sys2Proof/Machine/HostPort.lean ====
section
/-! DEFINITION. What the host can do to the block between steps: reset, poke, trigger (10_state.md R39). Withholding
triggers is no event (40_dispatch.md R128). -/

namespace Sys2Proof.Machine

/-- The reset input: 10_state.md R40 from any state, the halted one too, with memory as it was
(70_reset_and_hazards.md R240, R241). The configuration is the hardware's and stays. -/
def State.resetCore (s : State) : State := State.initial s.cfg s.mem

/-- `poke(a, v)`: `M[a] <- v`, nothing else (20_memory.md R62). -/
def State.poke (a v : Byte) (s : State) : State := s.writeByte a v

/-- The loader's pokes: consecutive bytes from address `a` on (70_reset_and_hazards.md R245; 92_eei_decisions.md
D14). -/
def State.pokeAll : Byte → List Byte → State → State
  | _, [], s => s
  | a, v :: vs, s => State.pokeAll (trunc8 ((a.toNat : Int) + 1)) vs (s.poke a v)

/-- One transaction of the host. -/
inductive HostEvent where
  | reset
  | poke (a v : Byte)
  | trigger
  deriving DecidableEq, Repr

/-- The block as its host sees it: the core, and whether a trigger has been issued since the last reset, which is
what decides if a poke is admitted (20_memory.md R62). That bit is the host's, not the core's. -/
structure Platform where
  core : State
  triggered : Bool
  deriving DecidableEq, Repr

/-- The block after one transaction, or `none` where the spec gives the host no such move: a poke after a run's first
trigger (20_memory.md R62, R66). -/
def Platform.event (e : HostEvent) (p : Platform) : Option Platform :=
  match e with
  | .reset => some { core := p.core.resetCore, triggered := false }
  | .poke a v => if p.triggered then none else some { p with core := p.core.poke a v }
  | .trigger =>
    match step p.core with
    | .next s => some { core := s, triggered := true }
    | .fault _ => none
    | .refused _ => none

end Sys2Proof.Machine
end

