-- ==== Sys2Proof/Safety.lean ====
section
/-! DEFINITION. The terms claims are made in: how a halt is classified (60_exceptions.md R227), what a safe run is, and
the invariant that every step keeps. -/

namespace Sys2Proof.Machine

/-- The program has ended: `halted = 1` and `cause = HLT` (R227). -/
abbrev State.Final (s : State) : Prop := s.halted = true ∧ s.cause = .hlt

/-- The run has ended in a fault: `halted = 1` with one of the other three causes (R227). -/
abbrev State.Faulted (s : State) : Prop :=
  s.halted = true ∧ (s.cause = .unknownOpcode ∨ s.cause = .arithmetic ∨ s.cause = .badRegisterIndex)

/-- The state after `n` triggers (40_dispatch.md R126), or the last one before the model stopped, which it never
does. -/
def State.after : Nat → State → State
  | 0, s => s
  | n + 1, s =>
    match step s with
    | .next t => State.after n t
    | .fault _ => s
    | .refused _ => s

/-- A run of `n` triggers is safe when none of its states is a fault (R227). -/
def SafeRun (n : Nat) (s : State) : Prop := ∀ k ≤ n, ¬ (State.after k s).Faulted

/-- What a halted core's registers say about its halt, cause by cause (60_exceptions.md R215, 10_state.md R29, R35):
while running nothing is recorded, and each cause goes with its value of `info` and the opcode in IR. -/
def State.StatusConsistent (s : State) : Prop :=
  match s.cause with
  | .none => s.halted = false ∧ s.info = 0
  | .hlt => s.halted = true ∧ s.info = 0 ∧ s.cfg.opmap.decode s.ir = some .hlt
  | .unknownOpcode => s.halted = true ∧ s.info = s.ir ∧ s.cfg.opmap.decode s.ir = none
  | .arithmetic => s.halted = true ∧ s.info = 0 ∧
      (s.cfg.opmap.decode s.ir = some .div ∨ s.cfg.opmap.decode s.ir = some .mod)
  | .badRegisterIndex => s.halted = true ∧ 7 < s.info.toNat ∧
      ∃ m, s.cfg.opmap.decode s.ir = some m ∧ m.format ≠ .f0

/-- The invariant of the machine: memory is canonical, FL's upper five bits are 0 (10_state.md R33), and the run status
is consistent. It rules out only states that no run of the spec's machine reaches. -/
structure State.Inv (s : State) : Prop where
  mem_wf : s.mem.wf
  fl_low : s.fl.toNat < 8
  status : s.StatusConsistent

end Sys2Proof.Machine
end

