-- ==== Sys2Proof/Certificates/Slice0/Obligations.lean ====
section
/-! DEFINITION. The statements about the machine that are left for the provers, with the few shapes they share. Each
docstring names the rule of spec/ it formalises; where a clause rests on a decision (D<n>) or on an inference that the
spec marks as its own, it says so. -/

namespace Sys2Proof.Machine

/-! ### Shapes -/

/-- `PC + 1 + IR[7:6]` modulo 256 (40_dispatch.md R121), in plain numbers. That the sum is reduced is the spec's
decision D9 (10_state.md R26). -/
def State.inOrderPc (s : State) : Byte := BitVec.ofNat 8 (s.pc.toNat + 1 + s.ir.toNat / 64)

/-- The decode error of 60_exceptions.md R212 for the operand byte `r`: nothing but the run status changes. All of its
form is the spec's decision D8. -/
def State.badIndexHalt (r : Byte) (s : State) : State :=
  { s with halted := true, cause := .badRegisterIndex, info := r }

/-- An instruction `ctor` of format F2RR: it is encoded as its opcode and two register bytes; on two registers `exec`
answers the state `handler` gives; on a byte above 7, operand A first, it answers the decode error (decision D8). -/
def PairRule (m : Mnemonic) (ctor : Byte → Byte → Instr) (handler : Fin 8 → Fin 8 → State → State) : Prop :=
  (m.format = .f2rr ∧ ∀ om a b, encode om (ctor a b) = [om.code m, a, b]) ∧
  (∀ a b s, exec (ctor (regByte a) (regByte b)) s = .next (handler a b s)) ∧
  (∀ a b s, 7 < a.toNat → exec (ctor a b) s = .next (s.badIndexHalt a)) ∧
  (∀ a b s, a.toNat < 8 → 7 < b.toNat → exec (ctor a b) s = .next (s.badIndexHalt b))

/-- An instruction `ctor` of format F1R, in the same three parts. -/
def OneRule (m : Mnemonic) (ctor : Byte → Instr) (handler : Fin 8 → State → State) : Prop :=
  (m.format = .f1r ∧ ∀ om r, encode om (ctor r) = [om.code m, r]) ∧
  (∀ r s, exec (ctor (regByte r)) s = .next (handler r s)) ∧
  (∀ r s, 7 < r.toNat → exec (ctor r) s = .next (s.badIndexHalt r))

/-- An instruction of format F0: no operand, nothing to check. -/
def NoneRule (m : Mnemonic) (i : Instr) (handler : State → State) : Prop :=
  (m.format = .f0 ∧ ∀ om, encode om i = [om.code m]) ∧ ∀ s, exec i s = .next (handler s)

/-- What the decoder reads at PC: the opcode byte and the two bytes after it, addresses modulo 256. -/
def State.decodedAtPc (s : State) : Decoded :=
  decode s.cfg.opmap [s.mem.read s.pc, s.mem.read (s.pc + 1), s.mem.read (s.pc + 2)]

/-- The register an operand byte names, read; 0 for a byte that names none. -/
def State.regAt (s : State) (r : Byte) : Byte := (s.x[r.toNat]?).getD 0

/-- The run status as one value. -/
def State.status (s : State) : Bool × Cause × Byte := (s.halted, s.cause, s.info)

end Sys2Proof.Machine

open Sys2Proof Sys2Proof.Machine

/-! ### What each instruction does -/

/-- 41_alu.md R147, ADD: `x[a] <- trunc8(x[a] + x[b])`, no flag, default advance. What a register byte above 7 does is
the spec's decision D8, the wrapped PC its decision D9 (entry 10). -/
def Obligations.AddWritesTheSumModulo256 : Prop :=
  PairRule .add .add fun a b s =>
    { s with x := s.x.set a (BitVec.ofNat 8 (s.x[a].toNat + s.x[b].toNat)), pc := s.inOrderPc }

/-- 41_alu.md R148 and R149, SUB and MUL: the exact result reduced modulo 256. That these two are reduced is the spec's
decision D3 (R140). What a register byte above 7 does is the spec's decision D8, the wrapped PC its decision D9 (entry
10). -/
def Obligations.SubAndMulWriteTheResultModulo256 : Prop :=
  PairRule .sub .sub (fun a b s =>
    { s with
      x := s.x.set a (BitVec.ofInt 8 ((s.x[a].toNat : Int) - s.x[b].toNat)), pc := s.inOrderPc }) ∧
  PairRule .mul .mul (fun a b s =>
    { s with x := s.x.set a (BitVec.ofNat 8 (s.x[a].toNat * s.x[b].toNat)), pc := s.inOrderPc })

/-- 41_alu.md R144, R150, R152, DIV and MOD by a divisor that is not 0: there are `q` and `r` with `x[a] = q * x[b] +
r` and `r < x[b]`; DIV writes `q` and MOD writes `r`. That the quotient is the integer part is the spec's decision D4.
The wrapped PC is its decision D9 (entry 10). -/
def Obligations.DivAndModWriteQuotientAndRemainder : Prop :=
  ∀ (a b : Fin 8) (s : State), s.x[b].toNat ≠ 0 →
    ∃ q r : Byte, s.x[a].toNat = q.toNat * s.x[b].toNat + r.toNat ∧ r.toNat < s.x[b].toNat ∧
      exec (.div (regByte a) (regByte b)) s = .next { s with x := s.x.set a q, pc := s.inOrderPc } ∧
      exec (.mod (regByte a) (regByte b)) s = .next { s with x := s.x.set a r, pc := s.inOrderPc }

/-- 41_alu.md R151, 60_exceptions.md R213: DIV and MOD by 0 halt with cause ARITHMETIC and the divisor, write no
register, and PC still advances. The unwritten destination and the PC are the spec's decisions D5 and D6. -/
def Obligations.DivisionByZeroHaltsWithArithmeticFault : Prop :=
  ∀ (a b : Fin 8) (s : State), s.x[b] = 0 → ∀ i ∈ [Instr.div (regByte a) (regByte b), .mod (regByte a) (regByte b)],
    exec i s = .next { s with halted := true, cause := .arithmetic, info := 0, pc := s.inOrderPc }

/-- 41_alu.md R153, R154, R159, INC, DEC and NOT. What a register byte above 7 does is the spec's decision D8, the
wrapped PC its decision D9 (entry 10). -/
def Obligations.IncDecAndNotReplaceTheRegister : Prop :=
  OneRule .inc .inc (fun a s =>
    { s with x := s.x.set a (BitVec.ofNat 8 (s.x[a].toNat + 1)), pc := s.inOrderPc }) ∧
  OneRule .dec .dec (fun a s =>
    { s with x := s.x.set a (BitVec.ofInt 8 ((s.x[a].toNat : Int) - 1)), pc := s.inOrderPc }) ∧
  OneRule .not .not (fun a s =>
    { s with x := s.x.set a (BitVec.ofNat 8 (255 - s.x[a].toNat)), pc := s.inOrderPc })

/-- 41_alu.md R156, R157, R158, AND, OR and XOR, bit by bit. What a register byte above 7 does is the spec's decision
D8, the wrapped PC its decision D9 (entry 10). -/
def Obligations.AndOrAndXorCombineBitByBit : Prop :=
  PairRule .and .and (fun a b s =>
    { s with
      x := s.x.set a (BitVec.ofFnLE fun k : Fin 8 => s.x[a].getLsbD k && s.x[b].getLsbD k), pc := s.inOrderPc }) ∧
  PairRule .or .or (fun a b s =>
    { s with
      x := s.x.set a (BitVec.ofFnLE fun k : Fin 8 => s.x[a].getLsbD k || s.x[b].getLsbD k), pc := s.inOrderPc }) ∧
  PairRule .xor .xor (fun a b s =>
    { s with
      x := s.x.set a (BitVec.ofFnLE fun k : Fin 8 => s.x[a].getLsbD k ^^ s.x[b].getLsbD k), pc := s.inOrderPc })

/-- 41_alu.md R160, CMP: exactly one of E, G, L is ORed into FL by an unsigned comparison, no bit is cleared, no
register is written. That the comparison is unsigned is the spec's decision D15. What a register byte above 7 does is
the spec's decision D8, the wrapped PC its decision D9 (entry 10). -/
def Obligations.CmpOrsTheRelationIntoFlags : Prop :=
  PairRule .cmp .cmp fun a b s =>
    { s with
      fl := s.fl ||| (if s.x[a].toNat = s.x[b].toNat then 0b001 else if s.x[a].toNat > s.x[b].toNat then 0b010 else 0b100),
      pc := s.inOrderPc }

/-- 42_data_stack_output.md R171, LDI: `x[r] <- i`, and only the register byte is checked. What a register byte above 7
does is the spec's decision D8, the wrapped PC its decision D9 (entry 10). -/
def Obligations.LdiLoadsTheLiteral : Prop :=
  (Mnemonic.ldi.format = .f2ri ∧ ∀ om r v, encode om (.ldi r v) = [om.code .ldi, r, v]) ∧
  (∀ (r : Fin 8) (v : Byte) (s : State),
    exec (.ldi (regByte r) v) s = .next { s with x := s.x.set r v, pc := s.inOrderPc }) ∧
  (∀ (r v : Byte) (s : State), 7 < r.toNat → exec (.ldi r v) s = .next (s.badIndexHalt r))

/-- 42_data_stack_output.md R173, PRN: `out <- out ++ [x[r]]`. `out` as a list is the spec's decision D12. What a
register byte above 7 does is the spec's decision D8, the wrapped PC its decision D9 (entry 10). -/
def Obligations.PrnAppendsTheRegisterToOut : Prop :=
  OneRule .prn .prn fun r s => { s with out := s.out ++ [s.x[r]], pc := s.inOrderPc }

/-- 42_data_stack_output.md R175, PUSH, its two statements in order: SP down by one modulo 256, then the byte of
`x[r]`, read now, to the address SP now holds. That `r = SP_IDX` stores the decremented SP is the spec's decision D16
(R176; entry 5). What a register byte above 7 does is the spec's decision D8, the wrapped PC its decision D9 (entry
10). -/
def Obligations.PushDecrementsThenStores : Prop :=
  OneRule .push .push fun r s =>
    let x1 := s.x.set s.cfg.spIdx (BitVec.ofInt 8 ((s.x[s.cfg.spIdx].toNat : Int) - 1))
    { s with x := x1, mem := s.mem.write x1[s.cfg.spIdx] x1[r], pc := s.inOrderPc }

/-- 42_data_stack_output.md R178, POP, its two statements in order: `x[r]` from the old SP's address, then SP, read
now, up by one modulo 256. That for `r = SP_IDX` SP ends one above the byte read is the spec's decision D16 (R179;
entry 5). What a register byte above 7 does is the spec's decision D8, the wrapped PC its decision D9 (entry 10). -/
def Obligations.PopLoadsThenIncrements : Prop :=
  OneRule .pop .pop fun r s =>
    let x1 := s.x.set r (s.mem.read s.x[s.cfg.spIdx])
    { s with x := x1.set s.cfg.spIdx (BitVec.ofNat 8 (x1[s.cfg.spIdx].toNat + 1)), pc := s.inOrderPc }

/-- 43_control.md R190 and R194, CALL and JMP: the next PC is `x[r]` and nothing else changes; the two have the same
effect on every state. What a register byte above 7 does is the spec's decision D8, that a target of 0 is one like any
other its decision D17 (entry 10). -/
def Obligations.CallAndJmpGoToTheRegister : Prop :=
  OneRule .call .call (fun r s => { s with pc := s.x[r] }) ∧
  OneRule .jmp .jmp (fun r s => { s with pc := s.x[r] }) ∧
  ∀ r s, exec (.call r) s = exec (.jmp r) s

/-- 43_control.md R192, RET: the byte at SP is the next PC and SP goes up by one modulo 256. -/
def Obligations.RetPopsTheNextPc : Prop :=
  NoneRule .ret .ret fun s =>
    { s with
      pc := s.mem.read s.x[s.cfg.spIdx],
      x := s.x.set s.cfg.spIdx (BitVec.ofNat 8 (s.x[s.cfg.spIdx].toNat + 1)) }

/-- 43_control.md R196 and R198, JEQ and JNE: `x[r]` if `FL[0]` is 1 (JEQ) or 0 (JNE), else the default advance; FL
itself stays. What a register byte above 7 does is the spec's decision D8, that a target of 0 is one like any other its
decision D17, the wrapped fall-through PC its decision D9 (entry 10). -/
def Obligations.JeqAndJneBranchOnEqual : Prop :=
  OneRule .jeq .jeq (fun r s => { s with pc := if s.fl.getLsbD 0 = true then s.x[r] else s.inOrderPc }) ∧
  OneRule .jne .jne (fun r s => { s with pc := if s.fl.getLsbD 0 = false then s.x[r] else s.inOrderPc })

/-- 43_control.md R200, HLT: halted 1, cause HLT, info 0, and PC advances. That PC advances in the step that halts is
the spec's decision D6 (40_dispatch.md R122). The wrapped PC is its decision D9 (entry 10). -/
def Obligations.HltStopsAndAdvances : Prop :=
  NoneRule .hlt .hlt fun s => { s with halted := true, cause := .hlt, info := 0, pc := s.inOrderPc }

/-- 43_control.md R202, NOP: only PC changes, and a whole step of it changes only IR and PC (+1). PC + 1 taken modulo
256 is the spec's decision D9 (entry 10). -/
def Obligations.NopChangesOnlyIrAndPc : Prop :=
  NoneRule .nop .nop (fun s => { s with pc := s.inOrderPc }) ∧
  ∀ s : State, s.cfg.opmap.Admissible → s.halted = false → s.mem.read s.pc = s.cfg.opmap.nop →
    step s = .next { s with ir := s.cfg.opmap.nop, pc := s.pc + 1 }

/-! ### The step -/

/-- 40_dispatch.md R110, R126: a step of a halted core leaves every part of the state as it was. That every halt is
terminal is the spec's decision D11 (10_state.md R37). -/
def Obligations.HaltedCoreTakesNoStep : Prop :=
  ∀ s : State, s.halted = true → step s = .next s

/-- 40_dispatch.md R110: when the bytes at PC decode to `i`, a step of a running core is `exec i` after IR has
received the opcode byte. Stage 3b inside it is the spec's decision D8, addresses modulo 256 its decision D9. -/
def Obligations.StepRunsTheDecodedInstruction : Prop :=
  ∀ (s : State) (i : Instr) (rest : List Byte), s.halted = false → s.decodedAtPc = .instr i rest →
    step s = exec i { s with ir := s.mem.read s.pc }

/-- 60_exceptions.md R211: a byte that is no opcode halts the core with cause UNKNOWN_OPCODE and that byte; only IR
and the run status change. That PC stays is the spec's decision D7. -/
def Obligations.UnknownOpcodeHaltsAtDecode : Prop :=
  ∀ s : State, s.halted = false → (∀ m, s.cfg.opmap.code m ≠ s.mem.read s.pc) →
    step s = .next { s with
      ir := s.mem.read s.pc, halted := true, cause := .unknownOpcode, info := s.mem.read s.pc }

/-- 60_exceptions.md R212, R217: for every instruction, the first register byte above 7 halts the core with cause
BAD_REGISTER_INDEX and that byte; nothing else but IR changes, so neither a PUSH nor a division by 0 comes first. The
stage, the order and the recorded value are the spec's decision D8. -/
def Obligations.BadRegisterIndexHaltsBeforeExecute : Prop :=
  ∀ (s : State) (i : Instr) (rest : List Byte) (r : Byte),
    s.halted = false → s.decodedAtPc = .instr i rest → i.firstBadIndex = some r →
    step s = .next { s with ir := s.mem.read s.pc, halted := true, cause := .badRegisterIndex, info := r }

/-- 10_state.md R27, the table of how each instruction moves PC in a step that completes without a fault. Sums modulo
256 are the spec's decision D9, HLT's advance its decision D6. -/
def Obligations.PcMovesAsTheTableSays : Prop :=
  ∀ (s t : State) (i : Instr) (rest : List Byte),
    s.cfg.opmap.Admissible → s.halted = false → s.decodedAtPc = .instr i rest → step s = .next t → ¬ t.Faulted →
    t.pc = match i with
      | .nop | .hlt => s.pc + 1
      | .ldi _ _ | .add _ _ | .sub _ _ | .mul _ _ | .div _ _ | .mod _ _ | .and _ _ | .or _ _ | .xor _ _
      | .cmp _ _ => s.pc + 3
      | .prn _ | .push _ | .pop _ | .inc _ | .dec _ | .not _ => s.pc + 2
      | .jmp r | .call r => s.regAt r
      | .jeq r => if s.fl.getLsbD 0 = true then s.regAt r else s.pc + 2
      | .jne r => if s.fl.getLsbD 0 = false then s.regAt r else s.pc + 2
      | .ret => s.mem.read s.x[s.cfg.spIdx]

/-- 60_exceptions.md R215 (the spec marks it as derived): what each halt records. A step that halts a running core
leaves registers, FL, memory and `out` as they were, puts the opcode byte in IR, and is one of the table's four
rows. -/
def Obligations.EveryHaltRecordsItsCause : Prop :=
  ∀ s t : State, s.cfg.opmap.Admissible → s.halted = false → step s = .next t → t.halted = true →
    (t.x = s.x ∧ t.fl = s.fl ∧ t.mem = s.mem ∧ t.out = s.out ∧ t.ir = s.mem.read s.pc) ∧
    ((t.cause = .hlt ∧ t.info = 0 ∧ t.ir = s.cfg.opmap.hlt ∧ t.pc = s.pc + 1) ∨
     (t.cause = .unknownOpcode ∧ t.info = t.ir ∧ (∀ m, s.cfg.opmap.code m ≠ t.ir) ∧ t.pc = s.pc) ∨
     (t.cause = .arithmetic ∧ t.info = 0 ∧ (t.ir = s.cfg.opmap.div ∨ t.ir = s.cfg.opmap.mod) ∧ t.pc = s.pc + 3) ∨
     (t.cause = .badRegisterIndex ∧ 7 < t.info.toNat ∧ t.pc = s.pc))

/-- 40_dispatch.md R120, R214: on valid registers the handlers that halt a running core are HLT, always, and DIV and
MOD, exactly when the divisor register holds 0. -/
def Obligations.OnlyHltAndDivisionByZeroHaltInExecute : Prop :=
  ∀ (i : Instr) (s t : State), WellFormed i = true → s.halted = false → exec i s = .next t →
    (t.halted = true ↔ i = .hlt ∨ ∃ a b, (i = .div a b ∨ i = .mod a b) ∧ s.regAt b = 0)

/-- 40_dispatch.md R125, 60_exceptions.md R227 (both marked as derived): no state is stuck and no step ends in a
fault or a refusal of the model. -/
def Obligations.EveryStateHasASuccessor : Prop :=
  ∀ s : State, ∃ t, step s = .next t

/-! ### Frames -/

/-- 10_state.md R21, 41_alu.md R142, R146: LDI and the ALU instructions other than CMP change, of the registers, only
the one operand A names; FL, IR, `out`, the configuration and every byte of memory stay; and but for a division by 0
the run status stays when the registers are valid. -/
def Obligations.RegisterResultFrame : Prop :=
  ∀ (r b v : Byte) (s t : State),
    ∀ i ∈ [Instr.ldi r v, .add r b, .sub r b, .mul r b, .div r b, .mod r b, .and r b, .or r b, .xor r b,
      .inc r, .dec r, .not r],
    exec i s = .next t →
      (∀ q : Fin 8, q.val ≠ r.toNat → t.x[q] = s.x[q]) ∧ t.fl = s.fl ∧ t.ir = s.ir ∧ t.out = s.out ∧
      t.cfg = s.cfg ∧ (∀ a, t.mem.read a = s.mem.read a) ∧
      (WellFormed i = true → i ∉ [Instr.div r b, .mod r b] → t.status = s.status) ∧
      (WellFormed i = true → s.regAt b ≠ 0 → t.status = s.status)

/-- 10_state.md R21, R31, R38, 20_memory.md R52: PRN, CMP, CALL, JMP, JEQ, JNE, HLT and NOP change no register and no
byte of memory; only CMP changes FL, only PRN changes `out`, and on valid registers only HLT changes the run
status. -/
def Obligations.NoRegisterResultFrame : Prop :=
  ∀ (r b : Byte) (s t : State),
    ∀ i ∈ [Instr.prn r, .cmp r b, .call r, .jmp r, .jeq r, .jne r, .hlt, .nop],
    exec i s = .next t →
      t.x = s.x ∧ t.ir = s.ir ∧ t.cfg = s.cfg ∧ (∀ a, t.mem.read a = s.mem.read a) ∧
      (i ≠ .cmp r b → t.fl = s.fl) ∧ (i ≠ .prn r → t.out = s.out) ∧
      (WellFormed i = true → i ≠ .hlt → t.status = s.status)

/-- 10_state.md R21, 20_memory.md R52, R57: PUSH, POP and RET change, of the registers, only SP and, for POP, the
destination; FL, IR, `out` and the configuration stay. POP and RET change no byte of memory. PUSH changes only the
byte at the address it computes, the decremented SP, and that byte becomes `x[r]` as it then stands. The canonical
form of the memory is the premise under which reads say what the memory holds. -/
def Obligations.StackFrame : Prop :=
  ∀ (r : Byte) (s t : State), s.mem.wf →
    ∀ i ∈ [Instr.push r, .pop r, .ret], exec i s = .next t →
      (∀ q : Fin 8, q ≠ s.cfg.spIdx → (i = .pop r → q.val ≠ r.toNat) → t.x[q] = s.x[q]) ∧
      t.fl = s.fl ∧ t.ir = s.ir ∧ t.out = s.out ∧ t.cfg = s.cfg ∧
      (WellFormed i = true → t.status = s.status) ∧
      (i ≠ .push r → ∀ a, t.mem.read a = s.mem.read a) ∧
      (i = .push r → ∀ a, a ≠ s.decSp.sp → t.mem.read a = s.mem.read a) ∧
      (i = .push r → r.toNat < 8 → t.mem.read s.decSp.sp = s.decSp.regAt r)

/-! ### The whole machine -/

/-- 20_memory.md R52: a step changes memory only if the opcode at PC is PUSH's, and then at most the byte at the
decremented SP. -/
def Obligations.OnlyPushWritesMemory : Prop :=
  ∀ s t : State, s.mem.wf → step s = .next t →
    (s.cfg.opmap.decode (s.mem.read s.pc) ≠ some .push → t.mem = s.mem) ∧
    ∀ a, a ≠ s.x[s.cfg.spIdx] - 1 → t.mem.read a = s.mem.read a

/-- 10_state.md R31: only CMP writes FL, and it only sets bits: after a step FL is what it was, with at most one of
E, G, L ORed in, and that only if the opcode at PC is CMP's. -/
def Obligations.OnlyCmpWritesFlags : Prop :=
  ∀ s t : State, step s = .next t →
    (s.cfg.opmap.decode (s.mem.read s.pc) ≠ some .cmp → t.fl = s.fl) ∧
    (t.fl = s.fl ∨ t.fl = s.fl ||| 0b001 ∨ t.fl = s.fl ||| 0b010 ∨ t.fl = s.fl ||| 0b100)

/-- 10_state.md R31, 95_test_vectors.md section 4, property 2 (derived there): along every run each bit of FL, once 1,
stays 1. -/
def Obligations.FlagsAreMonotoneAlongRuns : Prop :=
  ∀ (n : Nat) (s : State) (k : Nat), s.fl.getLsbD k = true → (State.after n s).fl.getLsbD k = true

/-- 43_control.md R197 (marked as derived): once E is set, whenever a later step of the run executes JEQ on a valid
register it is taken, and whenever one executes JNE it falls through. -/
def Obligations.StickyEqualDecidesEveryLaterJump : Prop :=
  ∀ (n : Nat) (s t u : State) (r : Fin 8) (rest : List Byte),
    s.cfg.opmap.Admissible → s.fl.getLsbD 0 = true → t = State.after n s → t.halted = false → step t = .next u →
    (t.decodedAtPc = .instr (.jeq (regByte r)) rest → u.pc = t.x[r]) ∧
    (t.decodedAtPc = .instr (.jne (regByte r)) rest → u.pc = t.pc + 2)

/-- 10_state.md R38, 95_test_vectors.md section 4, property 3: a step leaves `out` as it was or, if the opcode at PC
is PRN's, appends one byte, the value of the register it names. `out` as a list is the spec's decision D12. -/
def Obligations.OnlyPrnGrowsOut : Prop :=
  ∀ s t : State, step s = .next t →
    t.out = s.out ∨
    (s.cfg.opmap.decode (s.mem.read s.pc) = some .prn ∧ t.out = s.out ++ [s.regAt (s.mem.read (s.pc + 1))])

/-- 10_state.md R32: only JEQ and JNE read FL, and of it only E. Changing the other bits of FL changes nothing of the
next state but FL, and neither does changing all of FL where the opcode at PC is not JEQ's or JNE's. -/
def Obligations.OnlyEqualIsEverRead : Prop :=
  ∀ (s t : State) (f : Byte), step s = .next t →
    (f.getLsbD 0 = s.fl.getLsbD 0 ∨
      (s.cfg.opmap.decode (s.mem.read s.pc) ≠ some .jeq ∧ s.cfg.opmap.decode (s.mem.read s.pc) ≠ some .jne)) →
    ∃ g, step { s with fl := f } = .next { t with fl := g }

/-- 10_state.md R36, R38: no instruction reads `halted`, `cause` or `info`, and nothing in the core reads `out`: with
other values of them `exec` answers the same state but for them, and what it appends to `out` is the same. -/
def Obligations.RunStatusAndOutputAreNeverRead : Prop :=
  ∀ (i : Instr) (s t : State) (h : Bool) (c : Cause) (v : Byte) (o : List Byte), exec i s = .next t →
    ∃ h' c' v' new, t.out = s.out ++ new ∧
      exec i { s with halted := h, cause := c, info := v, out := o } =
        .next { t with halted := h', cause := c', info := v', out := o ++ new }

/-- 10_state.md R22: beside its reset value, which register is SP matters to PUSH, POP and RET alone. -/
def Obligations.SpIndexMattersOnlyToStackInstructions : Prop :=
  ∀ (i : Instr) (s t : State) (k : Fin 8), (∀ r, i ≠ .push r ∧ i ≠ .pop r) → i ≠ .ret → exec i s = .next t →
    exec i { s with cfg.spIdx := k } = .next { t with cfg.spIdx := k }

/-- 10_state.md R41: no step of any run changes `OPMAP` or `SP_IDX`. -/
def Obligations.ConfigurationNeverChanges : Prop :=
  ∀ (n : Nat) (s : State), (State.after n s).cfg = s.cfg

/-- 10_state.md R37, 40_dispatch.md R126: once a state of a run is halted, every later one is that state. Terminal
halts are the spec's decision D11. -/
def Obligations.HaltIsTerminalAlongRuns : Prop :=
  ∀ (k n : Nat) (s : State), (State.after k s).halted = true → State.after (k + n) s = State.after k s

/-- The invariant of the machine (20_memory.md R50, 10_state.md R33, R35, 60_exceptions.md R215, all as the model
holds them): a step from a state that meets it, under an admissible opcode map, ends in one that does. -/
def Obligations.StepKeepsTheInvariant : Prop :=
  ∀ s t : State, s.cfg.opmap.Admissible → s.Inv → step s = .next t → t.Inv

/-- The reset state meets the invariant, as does the start of a run of any configuration with any canonical memory. -/
def Obligations.ResetMeetsTheInvariant : Prop :=
  State.reset.Inv ∧ ∀ (cfg : Config) (m : Memory), m.wf → (State.initial cfg m).Inv

/-! ### Sequences of instructions -/

/-- 42_data_stack_output.md R181 (marked as derived): PUSH ra then POP rb, both registers other than SP, copies
`x[ra]` to `x[rb]`, restores SP, and leaves `x[ra]` at the old SP - 1; for SP itself the pair restores SP and leaves
the decremented SP there. The SP case rests on the spec's decision D16. -/
def Obligations.PushThenPopCopiesAndRestoresSp : Prop :=
  ∀ (ra rb : Fin 8) (s t u : State), s.mem.wf →
    exec (.push (regByte ra)) s = .next t → exec (.pop (regByte rb)) t = .next u →
    (ra ≠ s.cfg.spIdx → rb ≠ s.cfg.spIdx →
      u.x[rb] = s.x[ra] ∧ u.x[s.cfg.spIdx] = s.x[s.cfg.spIdx] ∧
      u.mem.read (s.x[s.cfg.spIdx] - 1) = s.x[ra]) ∧
    (ra = s.cfg.spIdx → rb = s.cfg.spIdx →
      u.x[s.cfg.spIdx] = s.x[s.cfg.spIdx] ∧
      u.mem.read (s.x[s.cfg.spIdx] - 1) = s.x[s.cfg.spIdx] - 1)

/-- 41_alu.md R161 (marked as derived): the pairs that restore `x[a]` for every value, and the exact condition under
which MUL then DIV does. -/
def Obligations.InverseOperationsRestoreTheRegister : Prop :=
  ∀ (a b : Fin 8) (s t u : State), a ≠ b →
    (∀ p ∈ [(Instr.add (regByte a) (regByte b), Instr.sub (regByte a) (regByte b)),
        (.sub (regByte a) (regByte b), .add (regByte a) (regByte b)),
        (.xor (regByte a) (regByte b), .xor (regByte a) (regByte b)),
        (.inc (regByte a), .dec (regByte a)), (.dec (regByte a), .inc (regByte a)),
        (.not (regByte a), .not (regByte a))],
      exec p.1 s = .next t → exec p.2 t = .next u → u.x = s.x) ∧
    (exec (.mul (regByte a) (regByte b)) s = .next t → exec (.div (regByte a) (regByte b)) t = .next u →
      s.x[b].toNat ≠ 0 → (u.x = s.x ↔ s.x[a].toNat * s.x[b].toNat ≤ 255))

/-- 20_memory.md R68 (marked as derived): a byte that PUSH stored is what the next step fetches, if PC is the address
it was stored at. -/
def Obligations.PushedByteIsWhatTheNextStepFetches : Prop :=
  ∀ (r : Fin 8) (rest : List Byte) (s t u : State), s.mem.wf → s.halted = false →
    s.decodedAtPc = .instr (.push (regByte r)) rest → step s = .next t → t.pc = t.x[t.cfg.spIdx] →
    step t = .next u → u.ir = t.x[r]

/-! ### Encoding -/

/-- 30_encoding.md R80, R83, R93: under every admissible opcode map, decoding the encoding of any instruction, with
any bytes after it, gives the instruction, with every operand, and those bytes. -/
def Obligations.DecodeOfEncodeIsTheInstruction : Prop :=
  ∀ (om : OpMap) (i : Instr) (rest : List Byte), om.Admissible → decode om (encode om i ++ rest) = .instr i rest

/-- The other direction: bytes that decode to an instruction are its encoding and the bytes after it, so no two
different encodings are one instruction. -/
def Obligations.DecodedBytesAreTheEncoding : Prop :=
  ∀ (om : OpMap) (bytes rest : List Byte) (i : Instr),
    decode om bytes = .instr i rest → bytes = encode om i ++ rest

/-- 30_encoding.md R84: under every admissible opcode map a byte is decoded to the mnemonic whose entry equals it in all
8 bits, and two bytes that differ in any bit are never the same opcode. -/
def Obligations.OpcodeIsComparedOnAllEightBits : Prop :=
  ∀ om : OpMap, om.Admissible →
    (∀ (op : Byte) (m : Mnemonic), om.decode op = some m ↔ om.code m = op) ∧
    ∀ (op op' : Byte) (m : Mnemonic) (k : Nat), op.getLsbD k ≠ op'.getLsbD k →
      om.decode op = some m → om.decode op' ≠ some m

/-- 30_encoding.md R94, R96: under every admissible opcode map exactly 233 of the 256 bytes are no opcode, the 64 bytes
with bits 7:6 = 11 among them (that last clause the spec marks as derived). -/
def Obligations.UnknownOpcodesAre233 : Prop :=
  ∀ om : OpMap, om.Admissible →
    ((List.range 256).filter fun n => om.decode (BitVec.ofNat 8 n) = none).length = 233 ∧
    ∀ op : Byte, op.toNat / 64 = 3 → om.decode op = none

/-- 30_encoding.md R91, R92: the default opcode map, the spec's decision D1 (entry 2), is admissible. -/
def Obligations.DefaultOpcodeMapIsAdmissible : Prop :=
  OpMap.standard.Admissible

/-- 30_encoding.md R100 and 95_test_vectors.md V-DEC, under the default opcode map (decision D1, entry 2): words of each
format, written out from the tables, decode to the instructions they stand for, and an unknown opcode to none. -/
def Obligations.TableWordsDecodeToTheirInstructions : Prop :=
  decodeTableWord 24 0x080080 = some (.ldi 0 8) ∧ decodeTableWord 24 0x010092 = some (.mul 0 1) ∧
  decodeTableWord 16 0x0040 = some (.prn 0) ∧ decodeTableWord 8 0x01 = some .hlt ∧
  decodeTableWord 24 0x050398 = some (.cmp 3 5) ∧ decodeTableWord 8 0x03 = none

/-- 30_encoding.md R89 (marked as derived): an instruction without operands does not depend on the two bytes read after
its opcode, one with a single register does not depend on the second. -/
def Obligations.UnusedOperandBytesAreIgnored : Prop :=
  ∀ (m : Mnemonic) (a b a' b' : Byte),
    (m.format = .f0 → m.toInstr a b = m.toInstr a' b') ∧ (m.format = .f1r → m.toInstr a b = m.toInstr a b')

/-- The interface of this model: where a word of the opcode table has an instruction, the next step of
`s.withFetchWord` runs exactly it, whatever state `s` is. -/
def Obligations.FetchWordRunsItsInstruction : Prop :=
  ∀ (s : State) (nbits w : Nat) (i : Instr), s.mem.wf → decodeTableWord nbits w = some i →
    step (s.withFetchWord nbits w) = exec i (s.withFetchWord nbits w).fetch

/-! ### Reset, memory and the host -/

/-- 10_state.md R40: after reset every register holds the value the rule lists and memory holds what it was given, for
every configuration and every content of memory. The run status and `out` are the spec's decisions D10 and D12. -/
def Obligations.InitialStateIsTheResetTable : Prop :=
  ∀ (cfg : Config) (memInit : Memory),
    let s := State.initial cfg memInit
    s.x[cfg.spIdx] = 0xF4 ∧ (∀ r, r ≠ cfg.spIdx → s.x[r] = 0) ∧ s.pc = 0 ∧ s.ir = 0 ∧ s.fl = 0 ∧
    s.halted = false ∧ s.cause = .none ∧ s.info = 0 ∧ s.out = [] ∧ s.mem = memInit ∧ s.cfg = cfg

/-- The model's choice, entries 1 and 2: its reset state is that table for SP_IDX = 7 and the default opcode map, with
no memory cell listed; its R7 is 0xF4 and its first step fetches from address 0. -/
def Obligations.ResetStateUsesTheDefaults : Prop :=
  State.reset = State.initial Config.standard [] ∧ State.reset.x[(7 : Fin 8)] = 0xF4 ∧ State.reset.pc = 0 ∧
  State.reset.cfg.opmap = OpMap.standard

/-- 70_reset_and_hazards.md R240, R241 and 10_state.md R37 (the spec's decisions D22 and D11): reset, from any state,
puts every register at its reset value and leaves memory as it is; of the host's transactions it is the only one after
which a halted core is not halted. -/
def Obligations.OnlyResetLeavesTheHaltedState : Prop :=
  ∀ (p q : Platform) (e : HostEvent), p.event e = some q →
    (e = .reset → q.core = State.initial p.core.cfg p.core.mem ∧ q.triggered = false) ∧
    (p.core.halted = true → q.core.halted = false → e = .reset)

/-- 20_memory.md R62, R57: a poke is admitted exactly before the first trigger after a reset, and then the byte at its
address reads as the value poked, every other byte as before, and nothing else changes. -/
def Obligations.PokeStoresBeforeTheFirstTrigger : Prop :=
  ∀ (p : Platform) (a v : Byte), p.core.mem.wf →
    (p.triggered = true → p.event (.poke a v) = none) ∧
    (p.triggered = false →
      ∃ m : Memory, p.event (.poke a v) = some { p with core.mem := m } ∧ m.read a = v ∧
        ∀ b, b ≠ a → m.read b = p.core.mem.read b)

/-- 20_memory.md R61 (decision D13) and the model's entry 1: every content of the 256 cells is the reading of exactly
one canonical memory, so a statement about every state is about every MEM_INIT. -/
def Obligations.EveryMemoryContentHasOneCanonicalForm : Prop :=
  ∀ f : Byte → Byte, ∃! m : Memory, m.wf ∧ ∀ a, m.read a = f a
end

