-- ==== Sys2Proof/Laws/Alu.lean ====
section
/-! SUPPORT. The ALU's functions in the arithmetic of bit vectors and of Nat: each exact result narrowed by `trunc8`
is the operation modulo 256 (41_alu.md R143, R144). -/

namespace Sys2Proof.Machine

theorem trunc8_natCast (n : Nat) : trunc8 (n : Int) = BitVec.ofNat 8 n := by
  simp [trunc8]

theorem trunc8_toNat (n : Nat) : (trunc8 (n : Int)).toNat = n % 256 := by
  simp [trunc8_natCast]

@[simp] theorem trunc8_add_one (b : Byte) : trunc8 ((b.toNat : Int) + 1) = b + 1 := by
  rw [show (b.toNat : Int) + 1 = ((b.toNat + 1 : Nat) : Int) by omega, trunc8_natCast]
  apply BitVec.eq_of_toNat_eq
  simp

@[simp] theorem trunc8_add_two (b : Byte) : trunc8 ((b.toNat : Int) + 2) = b + 2 := by
  rw [show (b.toNat : Int) + 2 = ((b.toNat + 2 : Nat) : Int) by omega, trunc8_natCast]
  apply BitVec.eq_of_toNat_eq
  simp

theorem aluAdd_eq (va vb : Byte) : aluAdd va vb = va + vb := by
  rw [aluAdd, show (va.toNat : Int) + vb.toNat = ((va.toNat + vb.toNat : Nat) : Int) by omega,
    trunc8_natCast]
  apply BitVec.eq_of_toNat_eq
  simp

theorem aluSub_eq (va vb : Byte) : aluSub va vb = va - vb := by
  apply BitVec.eq_of_toNat_eq
  have := vb.isLt
  simp only [aluSub, trunc8, BitVec.toNat_ofInt, BitVec.toNat_sub]
  omega

theorem aluMul_eq (va vb : Byte) : aluMul va vb = va * vb := by
  rw [aluMul, show (va.toNat : Int) * vb.toNat = ((va.toNat * vb.toNat : Nat) : Int) by simp,
    trunc8_natCast]
  apply BitVec.eq_of_toNat_eq
  simp

theorem aluInc_eq (va : Byte) : aluInc va = va + 1 := trunc8_add_one va

theorem aluDec_eq (va : Byte) : aluDec va = va - 1 := by
  apply BitVec.eq_of_toNat_eq
  have one : (1 : Byte).toNat = 1 := rfl
  simp only [aluDec, trunc8, BitVec.toNat_ofInt, BitVec.toNat_sub, one]
  omega

theorem aluDiv_eq (va vb : Byte) :
    aluDiv va vb = if vb = 0 then none else some (BitVec.ofNat 8 (va.toNat / vb.toNat)) := by
  have h : vb.toNat = 0 ↔ vb = 0 := by simp [← BitVec.toNat_inj]
  simp only [aluDiv, trunc8_natCast, h]

theorem aluMod_eq (va vb : Byte) :
    aluMod va vb = if vb = 0 then none else some (BitVec.ofNat 8 (va.toNat % vb.toNat)) := by
  have h : vb.toNat = 0 ↔ vb = 0 := by simp [← BitVec.toNat_inj]
  have e : (va.toNat : Int) - (va.toNat / vb.toNat : Nat) * vb.toNat = ((va.toNat % vb.toNat : Nat) : Int) := by
    have := Nat.div_add_mod va.toNat vb.toNat
    rw [Nat.mul_comm] at this
    have c := congrArg (Nat.cast : Nat → Int) this
    push_cast at c ⊢
    omega
  simp only [aluMod, e, trunc8_natCast, h]

end Sys2Proof.Machine
end

