-- ==== Sys2Proof/Laws/Decode.lean ====
section
/-! SUPPORT. The laws of the opcode map's lookup, of operand bytes and of well-formedness. -/

namespace Sys2Proof

theorem Mnemonic.mem_all (m : Mnemonic) : m ∈ Mnemonic.all := by
  cases m <;> decide

/-- What the lookup finds has the byte looked up as its opcode (30_encoding.md R93). -/
theorem OpMap.code_of_decode {om : OpMap} {op : Byte} {m : Mnemonic} (h : om.decode op = some m) :
    om.code m = op := by
  simpa using List.find?_some h

/-- An absent byte is the opcode of no instruction (R94). -/
theorem OpMap.code_ne_of_absent {om : OpMap} {op : Byte} (h : om.decode op = none) (m : Mnemonic) :
    om.code m ≠ op := by
  simpa using List.find?_eq_none.1 h m m.mem_all

/-- Under an admissible map no two mnemonics share a byte (R91 (b)). -/
theorem OpMap.Admissible.code_injective {om : OpMap} (h : om.Admissible) {m n : Mnemonic}
    (e : om.code m = om.code n) : m = n :=
  List.inj_on_of_nodup_map h.1 m.mem_all n.mem_all e

/-- Under an admissible map the lookup finds each mnemonic at its opcode (R93). -/
theorem OpMap.Admissible.decode_code {om : OpMap} (h : om.Admissible) (m : Mnemonic) :
    om.decode (om.code m) = some m := by
  cases e : om.decode (om.code m) with
  | none => exact absurd rfl (OpMap.code_ne_of_absent e m)
  | some n => rw [h.code_injective (OpMap.code_of_decode e)]

/-- Under an admissible map bits 7:6 of an opcode are the operand count (R91 (c)). -/
theorem OpMap.Admissible.count_code {om : OpMap} (h : om.Admissible) (m : Mnemonic) :
    opcodeCount (om.code m) = m.format.operandCount :=
  h.2 m m.mem_all

theorem opcodeCount_eq (op : Byte) : opcodeCount op = op.toNat / 64 := by
  simp only [opcodeCount, BitVec.extractLsb'_toNat, Nat.shiftRight_eq_div_pow]
  omega

@[simp] theorem regByte_toNat (r : Fin 8) : (regByte r).toNat = r.val := by
  simp [regByte]; omega

@[simp] theorem Instr.mnemonic_toInstr (m : Mnemonic) (a b : Byte) : (m.toInstr a b).mnemonic = m := by
  cases m <;> rfl

/-- An instruction is its mnemonic applied to its operand bytes. -/
theorem Instr.toInstr_operands (i : Instr) :
    i.mnemonic.toInstr (i.operandBytes.getD 0 0) (i.operandBytes.getD 1 0) = i := by
  cases i <;> rfl

namespace Machine

@[simp] theorem regIndex_regByte (r : Fin 8) : regIndex (regByte r) = some r := by
  simp [regIndex]

theorem regIndex_of_gt {b : Byte} (h : 7 < b.toNat) : regIndex b = none := by
  simp [regIndex]; omega

/-- An operand byte names a register or is above 7 (30_encoding.md R87). -/
theorem regByte_or_gt (b : Byte) : (∃ r, b = regByte r) ∨ 7 < b.toNat := by
  by_cases h : b.toNat < 8
  · exact .inl ⟨⟨b.toNat, h⟩, by simp [regByte]⟩
  · exact .inr (by omega)

end Machine

end Sys2Proof
end

