-- ==== Sys2Proof/Laws/State.lean ====
section
/-! SUPPORT. One lemma for each field and each update of the state, and for the operations that are other names of an
update, so that no later proof unfolds a record update. -/

namespace Sys2Proof.Machine

variable (s : State)

/-! ### Operations that are other names of an update -/

@[simp] theorem State.raise_eq (e : Exn) : s.raise e = s.halt e.cause e.info := rfl
@[simp] theorem State.stop_eq : s.stop = s.halt .hlt 0 := rfl
@[simp] theorem State.decSp_eq : s.decSp = s.writeReg s.cfg.spIdx (aluDec s.sp) := rfl
@[simp] theorem State.incSp_eq : s.incSp = s.writeReg s.cfg.spIdx (aluInc s.sp) := rfl
@[simp] theorem State.pcUpdate_none : s.pcUpdate none = s.pcUpdate (some s.defaultNext) := rfl

/-! ### One lemma per field per update -/

@[simp] theorem State.writeReg_cfg (r : Fin 8) (v : Byte) : (s.writeReg r v).cfg = s.cfg := rfl
@[simp] theorem State.writeReg_x (r : Fin 8) (v : Byte) : (s.writeReg r v).x = s.x.set r v := rfl
@[simp] theorem State.writeReg_pc (r : Fin 8) (v : Byte) : (s.writeReg r v).pc = s.pc := rfl
@[simp] theorem State.writeReg_ir (r : Fin 8) (v : Byte) : (s.writeReg r v).ir = s.ir := rfl
@[simp] theorem State.writeReg_fl (r : Fin 8) (v : Byte) : (s.writeReg r v).fl = s.fl := rfl
@[simp] theorem State.writeReg_halted (r : Fin 8) (v : Byte) : (s.writeReg r v).halted = s.halted := rfl
@[simp] theorem State.writeReg_cause (r : Fin 8) (v : Byte) : (s.writeReg r v).cause = s.cause := rfl
@[simp] theorem State.writeReg_info (r : Fin 8) (v : Byte) : (s.writeReg r v).info = s.info := rfl
@[simp] theorem State.writeReg_out (r : Fin 8) (v : Byte) : (s.writeReg r v).out = s.out := rfl
@[simp] theorem State.writeReg_mem (r : Fin 8) (v : Byte) : (s.writeReg r v).mem = s.mem := rfl

@[simp] theorem State.writeByte_cfg (a v : Byte) : (s.writeByte a v).cfg = s.cfg := rfl
@[simp] theorem State.writeByte_x (a v : Byte) : (s.writeByte a v).x = s.x := rfl
@[simp] theorem State.writeByte_pc (a v : Byte) : (s.writeByte a v).pc = s.pc := rfl
@[simp] theorem State.writeByte_ir (a v : Byte) : (s.writeByte a v).ir = s.ir := rfl
@[simp] theorem State.writeByte_fl (a v : Byte) : (s.writeByte a v).fl = s.fl := rfl
@[simp] theorem State.writeByte_halted (a v : Byte) : (s.writeByte a v).halted = s.halted := rfl
@[simp] theorem State.writeByte_cause (a v : Byte) : (s.writeByte a v).cause = s.cause := rfl
@[simp] theorem State.writeByte_info (a v : Byte) : (s.writeByte a v).info = s.info := rfl
@[simp] theorem State.writeByte_out (a v : Byte) : (s.writeByte a v).out = s.out := rfl
@[simp] theorem State.writeByte_mem (a v : Byte) : (s.writeByte a v).mem = s.mem.write a v := rfl

@[simp] theorem State.emit_cfg (v : Byte) : (s.emit v).cfg = s.cfg := rfl
@[simp] theorem State.emit_x (v : Byte) : (s.emit v).x = s.x := rfl
@[simp] theorem State.emit_pc (v : Byte) : (s.emit v).pc = s.pc := rfl
@[simp] theorem State.emit_ir (v : Byte) : (s.emit v).ir = s.ir := rfl
@[simp] theorem State.emit_fl (v : Byte) : (s.emit v).fl = s.fl := rfl
@[simp] theorem State.emit_halted (v : Byte) : (s.emit v).halted = s.halted := rfl
@[simp] theorem State.emit_cause (v : Byte) : (s.emit v).cause = s.cause := rfl
@[simp] theorem State.emit_info (v : Byte) : (s.emit v).info = s.info := rfl
@[simp] theorem State.emit_out (v : Byte) : (s.emit v).out = s.out ++ [v] := rfl
@[simp] theorem State.emit_mem (v : Byte) : (s.emit v).mem = s.mem := rfl

@[simp] theorem State.orFlags_cfg (k : Byte) : (s.orFlags k).cfg = s.cfg := rfl
@[simp] theorem State.orFlags_x (k : Byte) : (s.orFlags k).x = s.x := rfl
@[simp] theorem State.orFlags_pc (k : Byte) : (s.orFlags k).pc = s.pc := rfl
@[simp] theorem State.orFlags_ir (k : Byte) : (s.orFlags k).ir = s.ir := rfl
@[simp] theorem State.orFlags_fl (k : Byte) : (s.orFlags k).fl = s.fl ||| k := rfl
@[simp] theorem State.orFlags_halted (k : Byte) : (s.orFlags k).halted = s.halted := rfl
@[simp] theorem State.orFlags_cause (k : Byte) : (s.orFlags k).cause = s.cause := rfl
@[simp] theorem State.orFlags_info (k : Byte) : (s.orFlags k).info = s.info := rfl
@[simp] theorem State.orFlags_out (k : Byte) : (s.orFlags k).out = s.out := rfl
@[simp] theorem State.orFlags_mem (k : Byte) : (s.orFlags k).mem = s.mem := rfl

@[simp] theorem State.fetch_cfg : (s.fetch).cfg = s.cfg := rfl
@[simp] theorem State.fetch_x : (s.fetch).x = s.x := rfl
@[simp] theorem State.fetch_pc : (s.fetch).pc = s.pc := rfl
@[simp] theorem State.fetch_ir : (s.fetch).ir = s.mem.read s.pc := rfl
@[simp] theorem State.fetch_fl : (s.fetch).fl = s.fl := rfl
@[simp] theorem State.fetch_halted : (s.fetch).halted = s.halted := rfl
@[simp] theorem State.fetch_cause : (s.fetch).cause = s.cause := rfl
@[simp] theorem State.fetch_info : (s.fetch).info = s.info := rfl
@[simp] theorem State.fetch_out : (s.fetch).out = s.out := rfl
@[simp] theorem State.fetch_mem : (s.fetch).mem = s.mem := rfl

@[simp] theorem State.halt_cfg (c : Cause) (v : Byte) : (s.halt c v).cfg = s.cfg := rfl
@[simp] theorem State.halt_x (c : Cause) (v : Byte) : (s.halt c v).x = s.x := rfl
@[simp] theorem State.halt_pc (c : Cause) (v : Byte) : (s.halt c v).pc = s.pc := rfl
@[simp] theorem State.halt_ir (c : Cause) (v : Byte) : (s.halt c v).ir = s.ir := rfl
@[simp] theorem State.halt_fl (c : Cause) (v : Byte) : (s.halt c v).fl = s.fl := rfl
@[simp] theorem State.halt_halted (c : Cause) (v : Byte) : (s.halt c v).halted = true := rfl
@[simp] theorem State.halt_cause (c : Cause) (v : Byte) : (s.halt c v).cause = c := rfl
@[simp] theorem State.halt_info (c : Cause) (v : Byte) : (s.halt c v).info = v := rfl
@[simp] theorem State.halt_out (c : Cause) (v : Byte) : (s.halt c v).out = s.out := rfl
@[simp] theorem State.halt_mem (c : Cause) (v : Byte) : (s.halt c v).mem = s.mem := rfl

@[simp] theorem State.pcUpdate_some_cfg (t : Byte) : (s.pcUpdate (some t)).cfg = s.cfg := rfl
@[simp] theorem State.pcUpdate_some_x (t : Byte) : (s.pcUpdate (some t)).x = s.x := rfl
@[simp] theorem State.pcUpdate_some_pc (t : Byte) : (s.pcUpdate (some t)).pc = t := rfl
@[simp] theorem State.pcUpdate_some_ir (t : Byte) : (s.pcUpdate (some t)).ir = s.ir := rfl
@[simp] theorem State.pcUpdate_some_fl (t : Byte) : (s.pcUpdate (some t)).fl = s.fl := rfl
@[simp] theorem State.pcUpdate_some_halted (t : Byte) : (s.pcUpdate (some t)).halted = s.halted := rfl
@[simp] theorem State.pcUpdate_some_cause (t : Byte) : (s.pcUpdate (some t)).cause = s.cause := rfl
@[simp] theorem State.pcUpdate_some_info (t : Byte) : (s.pcUpdate (some t)).info = s.info := rfl
@[simp] theorem State.pcUpdate_some_out (t : Byte) : (s.pcUpdate (some t)).out = s.out := rfl
@[simp] theorem State.pcUpdate_some_mem (t : Byte) : (s.pcUpdate (some t)).mem = s.mem := rfl

/-- An optional next PC never touches anything but PC. -/
theorem State.pcUpdate_eq (n : Option Byte) :
    s.pcUpdate n = { s with pc := n.getD s.defaultNext } := by
  cases n <;> rfl

/-! ### Reading registers and bytes -/

@[simp] theorem State.reg_writeReg (r q : Fin 8) (v : Byte) :
    (s.writeReg r v).reg q = if r = q then v else s.reg q := by
  simp [State.reg, State.writeReg, Vector.getElem_set, Fin.ext_iff]

theorem State.sp_eq : s.sp = s.reg s.cfg.spIdx := rfl

/-- Registers depend on the field `x` alone. -/
theorem State.reg_congr (t : State) (h : s.x = t.x) (r : Fin 8) : s.reg r = t.reg r := by
  simp [State.reg, h]

@[simp] theorem State.reg_writeByte (a v : Byte) (r : Fin 8) : (s.writeByte a v).reg r = s.reg r := rfl
@[simp] theorem State.reg_emit (v : Byte) (r : Fin 8) : (s.emit v).reg r = s.reg r := rfl
@[simp] theorem State.reg_orFlags (k : Byte) (r : Fin 8) : (s.orFlags k).reg r = s.reg r := rfl
@[simp] theorem State.reg_fetch (r : Fin 8) : s.fetch.reg r = s.reg r := rfl
@[simp] theorem State.reg_halt (c : Cause) (v : Byte) (r : Fin 8) : (s.halt c v).reg r = s.reg r := rfl
@[simp] theorem State.reg_pcUpdate (n : Option Byte) (r : Fin 8) : (s.pcUpdate n).reg r = s.reg r := by
  cases n <;> rfl

@[simp] theorem State.readByte_eq (a : Byte) : s.readByte a = s.mem.read a := rfl

/-- After a reset value is written, the register file of the initial state. -/
theorem State.reg_initial (cfg : Config) (m : Memory) (r : Fin 8) :
    (State.initial cfg m).reg r = if cfg.spIdx = r then Config.spInit else 0 := by
  simp [State.reg, State.initial, Vector.getElem_set, Fin.ext_iff]

end Sys2Proof.Machine
end

