-- ==== Sys2Proof/Laws/Ops.lean ====
section
/-! SUPPORT. What each shared operation can do, said once: the operand checks, the ALU handlers, the stack
handlers. -/

namespace Sys2Proof.Machine

variable {s t : State}

/-! ### The operand check (40_dispatch.md R116) -/

@[simp] theorem withReg_regByte (r : Fin 8) (k : Fin 8 → State) :
    withReg (regByte r) s k = .next (k r) := by
  simp [withReg]

theorem withReg_of_gt {a : Byte} (h : 7 < a.toNat) (k : Fin 8 → State) :
    withReg a s k = .next (s.raise (.badRegisterIndex a)) := by
  simp [withReg, regIndex_of_gt h]

@[simp] theorem withRegs_regByte (a b : Fin 8) (k : Fin 8 → Fin 8 → State) :
    withRegs (regByte a) (regByte b) s k = .next (k a b) := by
  simp [withRegs]

theorem withRegs_of_gt_left {a : Byte} (h : 7 < a.toNat) (b : Byte) (k : Fin 8 → Fin 8 → State) :
    withRegs a b s k = .next (s.raise (.badRegisterIndex a)) := by
  simp [withRegs, regIndex_of_gt h]

theorem withRegs_of_gt_right (a : Fin 8) {b : Byte} (h : 7 < b.toNat) (k : Fin 8 → Fin 8 → State) :
    withRegs (regByte a) b s k = .next (s.raise (.badRegisterIndex b)) := by
  simp [withRegs, withReg_of_gt h]

/-- Everything `withReg` can answer. -/
theorem withReg_cases (a : Byte) (s : State) (k : Fin 8 → State) :
    (∃ r, a = regByte r ∧ withReg a s k = .next (k r)) ∨
    (7 < a.toNat ∧ withReg a s k = .next (s.raise (.badRegisterIndex a))) := by
  obtain ⟨r, rfl⟩ | h := regByte_or_gt a
  · exact .inl ⟨r, rfl, withReg_regByte r k⟩
  · exact .inr ⟨h, withReg_of_gt h k⟩

/-- Everything `withRegs` can answer: the first byte above 7 is the one reported. -/
theorem withRegs_cases (a b : Byte) (s : State) (k : Fin 8 → Fin 8 → State) :
    (∃ ra rb, a = regByte ra ∧ b = regByte rb ∧ withRegs a b s k = .next (k ra rb)) ∨
    (7 < a.toNat ∧ withRegs a b s k = .next (s.raise (.badRegisterIndex a))) ∨
    (a.toNat < 8 ∧ 7 < b.toNat ∧ withRegs a b s k = .next (s.raise (.badRegisterIndex b))) := by
  obtain ⟨ra, rfl⟩ | h := regByte_or_gt a
  · obtain ⟨rb, rfl⟩ | h := regByte_or_gt b
    · exact .inl ⟨ra, rb, rfl, rfl, withRegs_regByte ra rb k⟩
    · exact .inr (.inr ⟨by simp, h, withRegs_of_gt_right ra h k⟩)
  · exact .inr (.inl ⟨h, withRegs_of_gt_left h b k⟩)

/-! ### The PC update (40_dispatch.md R121) -/

theorem State.defaultNext_eq (s : State) : s.defaultNext = s.pc + 1 + BitVec.ofNat 8 (opcodeCount s.ir) := by
  rw [State.defaultNext,
    show (s.pc.toNat : Int) + 1 + opcodeCount s.ir = ((s.pc.toNat + 1 + opcodeCount s.ir : Nat) : Int) by omega,
    trunc8_natCast]
  apply BitVec.eq_of_toNat_eq
  simp [BitVec.toNat_add]

/-! ### The handlers -/

/-- DIV's and MOD's handler: a result is written, or the fault is taken; PC advances either way. -/
theorem divisionAlu_cases (f : Byte → Byte → Option Byte) (ra rb : Fin 8) (s : State) :
    (∃ v, f (s.reg ra) (s.reg rb) = some v ∧
      divisionAlu f ra rb s = (s.writeReg ra v).pcUpdate none) ∨
    (f (s.reg ra) (s.reg rb) = none ∧
      divisionAlu f ra rb s = (s.raise (.arithmeticFault (s.reg rb))).pcUpdate none) := by
  unfold divisionAlu
  cases h : f (s.reg ra) (s.reg rb) with
  | some v => exact .inl ⟨v, rfl, rfl⟩
  | none => exact .inr ⟨rfl, rfl⟩

/-- PUSH's handler: SP goes down by one and the register, read after that, is stored at the new SP. -/
theorem pushReg_eq (r : Fin 8) (s : State) :
    pushReg r s = (s.writeReg s.cfg.spIdx (s.sp - 1)).writeByte (s.sp - 1)
      (if s.cfg.spIdx = r then s.sp - 1 else s.reg r) := by
  simp [pushReg, State.sp_eq, aluDec_eq]

/-- POP's handler: the register gets the byte at the old SP, then SP, read after that, goes up by one. -/
theorem popReg_eq (r : Fin 8) (s : State) :
    popReg r s = (s.writeReg r (s.mem.read s.sp)).writeReg s.cfg.spIdx
      ((if r = s.cfg.spIdx then s.mem.read s.sp else s.sp) + 1) := by
  simp [popReg, State.sp_eq, aluInc_eq]

end Sys2Proof.Machine
end

