-- ==== Sys2Proof/Laws/Exec.lean ====
section
/-! SUPPORT. What `exec` and a step can do, said once: the decode error or the effect of the handler, and the three ways of
a step, from which every whole-machine statement starts. -/

namespace Sys2Proof.Machine

variable {s t : State}

/-! ### Well-formed or not -/

theorem regByte_of_lt {a : Byte} (h : a.toNat < 8) : ∃ r, a = regByte r := by
  obtain h' | h' := regByte_or_gt a
  · exact h'
  · omega

theorem regBytes_of_lt {a b : Byte} (h : a.toNat < 8 ∧ b.toNat < 8) :
    ∃ ra rb, a = regByte ra ∧ b = regByte rb := by
  obtain ⟨⟨ra, ha⟩, rb, hb⟩ := And.intro (regByte_of_lt h.1) (regByte_of_lt h.2)
  exact ⟨ra, rb, ha, hb⟩

/-- An instruction is well formed or has a first register byte above 7. -/
theorem wellFormed_or_bad (i : Instr) : WellFormed i = true ∨ ∃ r, i.firstBadIndex = some r := by
  cases e : i.firstBadIndex with
  | some r => exact .inr ⟨r, rfl⟩
  | none =>
    refine .inl ?_
    simp only [Instr.firstBadIndex, List.find?_eq_none] at e
    simp only [WellFormed, List.all_eq_true]
    intro r hr
    have := e r hr
    simp at this ⊢
    omega

theorem not_wellFormed_of_bad {i : Instr} {r : Byte} (h : i.firstBadIndex = some r) : ¬ WellFormed i = true := by
  intro hw
  simp only [WellFormed, List.all_eq_true] at hw
  have h1 := hw r (List.mem_of_find?_eq_some h)
  have h2 := List.find?_some h
  simp at h1 h2
  omega

theorem gt_of_bad {i : Instr} {r : Byte} (h : i.firstBadIndex = some r) : 7 < r.toNat := by
  simpa using List.find?_some h

theorem withReg_bad {a r : Byte} (h : [a].find? (fun r => decide (7 < r.toNat)) = some r) (s : State)
    (k : Fin 8 → State) : withReg a s k = .next (s.raise (.badRegisterIndex r)) := by
  have h2 := List.find?_some h
  obtain rfl : r = a := by simpa using List.mem_of_find?_eq_some h
  exact withReg_of_gt (by simpa using h2) k

theorem withRegs_bad {a b r : Byte} (h : [a, b].find? (fun r => decide (7 < r.toNat)) = some r) (s : State)
    (k : Fin 8 → Fin 8 → State) : withRegs a b s k = .next (s.raise (.badRegisterIndex r)) := by
  by_cases ha : 7 < a.toNat
  · rw [List.find?_cons_of_pos (by simpa using ha)] at h
    obtain rfl := Option.some.inj h
    exact withRegs_of_gt_left ha b k
  · rw [List.find?_cons_of_neg (by simpa using ha)] at h
    obtain ⟨ra, rfl⟩ := regByte_of_lt (show a.toNat < 8 by omega)
    have e : withRegs (regByte ra) b s k = withReg b s (k ra) := by simp [withRegs]
    rw [e]
    exact withReg_bad h s (k ra)

/-- An instruction with a register byte above 7 takes the decode error for the first one. -/
theorem exec_of_bad {i : Instr} {r : Byte} (h : i.firstBadIndex = some r) (s : State) :
    exec i s = .next (s.raise (.badRegisterIndex r)) := by
  cases i <;> first
    | exact withReg_bad h s _
    | exact withRegs_bad h s _
    | cases h

/-! ### The effect of a handler -/

/-- `Effect i s u n`: on valid registers the handler of `i` turns `s` into `u` and produces the next PC `n`
(40_dispatch.md R118, R119). One rule for each instruction, two for DIV and MOD. -/
inductive Effect : Instr → State → State → Option Byte → Prop
  | ldi r v s : Effect (.ldi (regByte r) v) s (s.writeReg r v) none
  | prn r s : Effect (.prn (regByte r)) s (s.emit (s.reg r)) none
  | push r s : Effect (.push (regByte r)) s (pushReg r s) none
  | pop r s : Effect (.pop (regByte r)) s (popReg r s) none
  | call r s : Effect (.call (regByte r)) s s (some (s.reg r))
  | ret s : Effect .ret s s.incSp (some (s.mem.read s.sp))
  | jmp r s : Effect (.jmp (regByte r)) s s (some (s.reg r))
  | jeq r s : Effect (.jeq (regByte r)) s s (if s.flE then some (s.reg r) else none)
  | jne r s : Effect (.jne (regByte r)) s s (if s.flE then none else some (s.reg r))
  | hlt s : Effect .hlt s s.stop none
  | nop s : Effect .nop s s none
  | add a b s : Effect (.add (regByte a) (regByte b)) s (s.writeReg a (aluAdd (s.reg a) (s.reg b))) none
  | sub a b s : Effect (.sub (regByte a) (regByte b)) s (s.writeReg a (aluSub (s.reg a) (s.reg b))) none
  | mul a b s : Effect (.mul (regByte a) (regByte b)) s (s.writeReg a (aluMul (s.reg a) (s.reg b))) none
  | div a b s v (h : aluDiv (s.reg a) (s.reg b) = some v) :
    Effect (.div (regByte a) (regByte b)) s (s.writeReg a v) none
  | mod a b s v (h : aluMod (s.reg a) (s.reg b) = some v) :
    Effect (.mod (regByte a) (regByte b)) s (s.writeReg a v) none
  | div0 a b s (h : aluDiv (s.reg a) (s.reg b) = none) :
    Effect (.div (regByte a) (regByte b)) s (s.raise (.arithmeticFault (s.reg b))) none
  | mod0 a b s (h : aluMod (s.reg a) (s.reg b) = none) :
    Effect (.mod (regByte a) (regByte b)) s (s.raise (.arithmeticFault (s.reg b))) none
  | and a b s : Effect (.and (regByte a) (regByte b)) s (s.writeReg a (aluAnd (s.reg a) (s.reg b))) none
  | or a b s : Effect (.or (regByte a) (regByte b)) s (s.writeReg a (aluOr (s.reg a) (s.reg b))) none
  | xor a b s : Effect (.xor (regByte a) (regByte b)) s (s.writeReg a (aluXor (s.reg a) (s.reg b))) none
  | inc a s : Effect (.inc (regByte a)) s (s.writeReg a (aluInc (s.reg a))) none
  | dec a s : Effect (.dec (regByte a)) s (s.writeReg a (aluDec (s.reg a))) none
  | not a s : Effect (.not (regByte a)) s (s.writeReg a (aluNot (s.reg a))) none
  | cmp a b s : Effect (.cmp (regByte a) (regByte b)) s (s.orFlags (cmpMask (s.reg a) (s.reg b))) none

/-- On valid registers `exec` answers the handler's state with PC updated. -/
theorem exec_of_wellFormed {i : Instr} (s : State) (h : WellFormed i = true) :
    ∃ u n, Effect i s u n ∧ exec i s = .next (u.pcUpdate n) := by
  cases i <;> simp only [WellFormed, Instr.registerOperands, List.all_cons, List.all_nil, Bool.and_true,
    Bool.and_eq_true, decide_eq_true_eq] at h
  case div a b =>
    obtain ⟨a, b, rfl, rfl⟩ := regBytes_of_lt h
    obtain ⟨v, h1, h2⟩ | ⟨h1, h2⟩ := divisionAlu_cases aluDiv a b s
    · exact ⟨_, _, .div a b s v h1, by simp only [exec, execDiv, withRegs_regByte, h2]⟩
    · exact ⟨_, _, .div0 a b s h1, by simp only [exec, execDiv, withRegs_regByte, h2]⟩
  case mod a b =>
    obtain ⟨a, b, rfl, rfl⟩ := regBytes_of_lt h
    obtain ⟨v, h1, h2⟩ | ⟨h1, h2⟩ := divisionAlu_cases aluMod a b s
    · exact ⟨_, _, .mod a b s v h1, by simp only [exec, execMod, withRegs_regByte, h2]⟩
    · exact ⟨_, _, .mod0 a b s h1, by simp only [exec, execMod, withRegs_regByte, h2]⟩
  case ret => exact ⟨_, _, .ret s, rfl⟩
  case hlt => exact ⟨_, _, .hlt s, rfl⟩
  case nop => exact ⟨_, _, .nop s, rfl⟩
  case ldi r v =>
    obtain ⟨r, rfl⟩ := regByte_of_lt h
    exact ⟨_, _, .ldi r v s, withReg_regByte _ _⟩
  case add => obtain ⟨a, b, rfl, rfl⟩ := regBytes_of_lt h; exact ⟨_, _, .add a b s, withRegs_regByte _ _ _⟩
  case sub => obtain ⟨a, b, rfl, rfl⟩ := regBytes_of_lt h; exact ⟨_, _, .sub a b s, withRegs_regByte _ _ _⟩
  case mul => obtain ⟨a, b, rfl, rfl⟩ := regBytes_of_lt h; exact ⟨_, _, .mul a b s, withRegs_regByte _ _ _⟩
  case and => obtain ⟨a, b, rfl, rfl⟩ := regBytes_of_lt h; exact ⟨_, _, .and a b s, withRegs_regByte _ _ _⟩
  case or => obtain ⟨a, b, rfl, rfl⟩ := regBytes_of_lt h; exact ⟨_, _, .or a b s, withRegs_regByte _ _ _⟩
  case xor => obtain ⟨a, b, rfl, rfl⟩ := regBytes_of_lt h; exact ⟨_, _, .xor a b s, withRegs_regByte _ _ _⟩
  case cmp => obtain ⟨a, b, rfl, rfl⟩ := regBytes_of_lt h; exact ⟨_, _, .cmp a b s, withRegs_regByte _ _ _⟩
  case prn => obtain ⟨r, rfl⟩ := regByte_of_lt h; exact ⟨_, _, .prn r s, withReg_regByte _ _⟩
  case push => obtain ⟨r, rfl⟩ := regByte_of_lt h; exact ⟨_, _, .push r s, withReg_regByte _ _⟩
  case pop => obtain ⟨r, rfl⟩ := regByte_of_lt h; exact ⟨_, _, .pop r s, withReg_regByte _ _⟩
  case call => obtain ⟨r, rfl⟩ := regByte_of_lt h; exact ⟨_, _, .call r s, withReg_regByte _ _⟩
  case jmp => obtain ⟨r, rfl⟩ := regByte_of_lt h; exact ⟨_, _, .jmp r s, withReg_regByte _ _⟩
  case jeq => obtain ⟨r, rfl⟩ := regByte_of_lt h; exact ⟨_, _, .jeq r s, withReg_regByte _ _⟩
  case jne => obtain ⟨r, rfl⟩ := regByte_of_lt h; exact ⟨_, _, .jne r s, withReg_regByte _ _⟩
  case inc => obtain ⟨r, rfl⟩ := regByte_of_lt h; exact ⟨_, _, .inc r s, withReg_regByte _ _⟩
  case dec => obtain ⟨r, rfl⟩ := regByte_of_lt h; exact ⟨_, _, .dec r s, withReg_regByte _ _⟩
  case not => obtain ⟨r, rfl⟩ := regByte_of_lt h; exact ⟨_, _, .not r s, withReg_regByte _ _⟩

/-- Everything `exec` can answer. -/
theorem exec_cases {i : Instr} (h : exec i s = .next t) :
    (∃ r, i.firstBadIndex = some r ∧ t = s.raise (.badRegisterIndex r)) ∨
    (WellFormed i = true ∧ ∃ u n, Effect i s u n ∧ t = u.pcUpdate n) := by
  obtain hw | ⟨r, hr⟩ := wellFormed_or_bad i
  · obtain ⟨u, n, he, hx⟩ := exec_of_wellFormed s hw
    exact .inr ⟨hw, u, n, he, by rw [h] at hx; cases hx; rfl⟩
  · exact .inl ⟨r, hr, by rw [exec_of_bad hr s] at h; cases h; rfl⟩

/-! ### The step -/

/-- Everything a step that answers a next state can have done: nothing (halted), the decode error of an unknown
opcode, or the decoded instruction. -/
theorem step_cases (h : step s = .next t) :
    (s.halted = true ∧ t = s) ∨
    (s.halted = false ∧ s.cfg.opmap.decode (s.mem.read s.pc) = none ∧
      t = s.fetch.raise (.unknownOpcode (s.mem.read s.pc))) ∨
    (∃ m, s.halted = false ∧ s.cfg.opmap.decode (s.mem.read s.pc) = some m ∧
      exec (m.toInstr (s.mem.read (s.pc + 1)) (s.mem.read (s.pc + 2))) s.fetch = .next t) := by
  unfold step cycle at h
  cases hh : s.halted with
  | true => exact .inl ⟨rfl, by simpa [hh, eq_comm] using h⟩
  | false =>
    cases hm : s.cfg.opmap.decode (s.mem.read s.pc) with
    | none => exact .inr (.inl ⟨rfl, rfl, by simpa [hh, hm, eq_comm] using h⟩)
    | some m =>
      exact .inr (.inr ⟨m, rfl, rfl, by simpa [hh, hm, State.operandA, State.operandB] using h⟩)

end Sys2Proof.Machine
end

