-- ==== Sys2Proof/Laws/Memory.lean ====
section
/-! SUPPORT. The laws of memory: a read after a write, the canonical form and that every operation keeps it, and
that canonical memories with equal reads are equal. -/

namespace Sys2Proof.Machine

theorem Memory.lookup_update (m : Memory) (a b : Nat) (v : Byte)
    (hs : m.Pairwise (fun c d => c.1 < d.1)) :
    (Memory.update m a v).lookup b = if b = a then v else m.lookup b := by
  induction m with
  | nil => by_cases h : v = Config.unlistedByte <;> simp [Memory.update, Memory.lookup, h]
  | cons c rest ih =>
    obtain ⟨k, w⟩ := c
    rw [List.pairwise_cons] at hs
    have absent : ∀ n, n ≤ k → Memory.lookup rest n = Config.unlistedByte := by
      intro n hn
      have h := hs.1
      clear ih hs
      induction rest with
      | nil => rfl
      | cons d rest ih =>
        have hd := h d (by simp)
        simp only [Memory.lookup]
        rw [if_neg (by simp at hd; omega)]
        exact ih fun e he => h e (by simp [he])
    simp only [Memory.update]
    split
    · split
      · by_cases hb : b = a
        · simp [*, Memory.lookup, show a ≠ k by omega, absent a (by omega)]
        · simp [hb]
      · by_cases hb : b = a <;> simp [Memory.lookup, hb]
    · split
      · subst a
        split
        · by_cases hb : b = k
          · simp [*]
          · simp [hb, Memory.lookup]
        · by_cases hb : b = k <;> simp [Memory.lookup, hb]
      · by_cases hb : b = k
        · simp [Memory.lookup, hb, show k ≠ a by omega]
        · simp [Memory.lookup, hb, ih hs.2]

/-- A read after a write: the value written at that address, the old value at every other (20_memory.md R57). -/
theorem Memory.read_write {m : Memory} (h : m.wf) (a b v : Byte) :
    (m.write a v).read b = if b = a then v else m.read b := by
  simp [Memory.read, Memory.write, Memory.lookup_update m _ _ _ h.1, BitVec.toNat_inj]

theorem Memory.mem_update {m : Memory} {a : Nat} {v : Byte} {c : Host.Cell}
    (h : c ∈ Memory.update m a v) : (c = (a, v) ∧ v ≠ Config.unlistedByte) ∨ c ∈ m := by
  induction m with
  | nil => by_cases hv : v = Config.unlistedByte <;> simp_all [Memory.update]
  | cons d rest ih =>
    simp only [Memory.update] at h
    split at h
    · split at h
      · exact .inr h
      · rcases List.mem_cons.1 h with h | h
        · exact .inl ⟨h, ‹_›⟩
        · exact .inr h
    · split at h
      · split at h
        · exact .inr (List.mem_cons_of_mem _ h)
        · rcases List.mem_cons.1 h with h | h
          · exact .inl ⟨h, ‹_›⟩
          · exact .inr (List.mem_cons_of_mem _ h)
      · rcases List.mem_cons.1 h with h | h
        · exact .inr (by simp [h])
        · exact (ih h).imp id (List.mem_cons_of_mem _)

/-- A write keeps the canonical form. -/
theorem Memory.write_wf {m : Memory} (h : m.wf) (a v : Byte) : (m.write a v).wf := by
  refine ⟨?_, fun c hc => ?_⟩
  · obtain ⟨hs, -⟩ := h
    unfold Memory.write
    induction m with
    | nil => by_cases hv : v = Config.unlistedByte <;> simp [Memory.update, hv]
    | cons d rest ih =>
      rw [List.pairwise_cons] at hs
      simp only [Memory.update]
      split
      · split
        · exact List.pairwise_cons.2 hs
        · refine List.pairwise_cons.2 ⟨fun e he => ?_, List.pairwise_cons.2 hs⟩
          rcases List.mem_cons.1 he with he | he
          · simpa [he]
          · exact lt_trans ‹_› (hs.1 e he)
      · split
        · split
          · exact hs.2
          · refine List.pairwise_cons.2 ⟨fun e he => ?_, hs.2⟩
            have := hs.1 e he
            simp only
            omega
        · refine List.pairwise_cons.2 ⟨fun e he => ?_, ih hs.2⟩
          rcases Memory.mem_update he with ⟨rfl, -⟩ | he
          · simp only; omega
          · exact hs.1 e he
  · rcases Memory.mem_update hc with ⟨rfl, hv⟩ | hc
    · exact ⟨a.isLt, hv⟩
    · exact h.2 c hc

/-- The empty memory is canonical. -/
theorem Memory.nil_wf : Memory.wf [] := by decide

/-- A listed cell of a sorted memory is what its address reads as. -/
theorem Memory.lookup_of_mem {m : Memory} (hs : m.Pairwise (fun c d => c.1 < d.1)) {c : Host.Cell}
    (hc : c ∈ m) : m.lookup c.1 = c.2 := by
  induction m with
  | nil => cases hc
  | cons d rest ih =>
    rw [List.pairwise_cons] at hs
    rcases List.mem_cons.1 hc with rfl | hc
    · simp [Memory.lookup]
    · have := hs.1 c hc
      simp [Memory.lookup, show c.1 ≠ d.1 by omega, ih hs.2 hc]

/-- An address that is not listed reads as the unlisted byte. -/
theorem Memory.lookup_of_not_mem {m : Memory} {a : Nat} (h : ∀ c ∈ m, c.1 ≠ a) :
    m.lookup a = Config.unlistedByte := by
  induction m with
  | nil => rfl
  | cons d rest ih =>
    have hd : a ≠ d.1 := fun e => h d (by simp) e.symm
    simp only [Memory.lookup]
    rw [if_neg hd]
    exact ih fun c hc => h c (by simp [hc])

end Sys2Proof.Machine
end

