-- ==== Sys2Proof/Laws/PerInstr.lean ====
section
/-! SUPPORT. The per-instruction family LengthField: the length of an encoded instruction can be read off bits 7:6 of its
first byte (30_encoding.md R82). -/

namespace Sys2Proof.Laws.LengthField

/-- Under every admissible opcode map the encoding of `i` is a first byte and as many bytes after it as bits 7:6 of
that byte say. -/
def Statement (i : Instr) : Prop :=
  ∀ om : OpMap, om.Admissible →
    ∃ op rest, encode om i = op :: rest ∧ rest.length = opcodeCount op

theorem of_count {i : Instr} (h : i.operandBytes.length = i.mnemonic.format.operandCount) : Statement i :=
  fun om ho => ⟨om.code i.mnemonic, i.operandBytes, rfl, by rw [h, ho.count_code]⟩

theorem ldi (r v : Byte) : Statement (.ldi r v) := of_count rfl
theorem prn (r : Byte) : Statement (.prn r) := of_count rfl
theorem push (r : Byte) : Statement (.push r) := of_count rfl
theorem pop (r : Byte) : Statement (.pop r) := of_count rfl
theorem call (r : Byte) : Statement (.call r) := of_count rfl
theorem ret : Statement (.ret) := of_count rfl
theorem jmp (r : Byte) : Statement (.jmp r) := of_count rfl
theorem jeq (r : Byte) : Statement (.jeq r) := of_count rfl
theorem jne (r : Byte) : Statement (.jne r) := of_count rfl
theorem hlt : Statement (.hlt) := of_count rfl
theorem nop : Statement (.nop) := of_count rfl
theorem add (a b : Byte) : Statement (.add a b) := of_count rfl
theorem sub (a b : Byte) : Statement (.sub a b) := of_count rfl
theorem mul (a b : Byte) : Statement (.mul a b) := of_count rfl
theorem div (a b : Byte) : Statement (.div a b) := of_count rfl
theorem mod (a b : Byte) : Statement (.mod a b) := of_count rfl
theorem and (a b : Byte) : Statement (.and a b) := of_count rfl
theorem or (a b : Byte) : Statement (.or a b) := of_count rfl
theorem xor (a b : Byte) : Statement (.xor a b) := of_count rfl
theorem inc (a : Byte) : Statement (.inc a) := of_count rfl
theorem dec (a : Byte) : Statement (.dec a) := of_count rfl
theorem not (a : Byte) : Statement (.not a) := of_count rfl
theorem cmp (a b : Byte) : Statement (.cmp a b) := of_count rfl

end Sys2Proof.Laws.LengthField
end

