-- ==== Sys2Proof/Tests/Slice0.lean ====
section
/-! SUPPORT. Tests of this model's writer: the check of well-formedness, every constructor's decoding from a word written out
from 30_encoding.md R83 and R92, one step of each instruction from the vectors of 95_test_vectors.md, and a witness
for the hypotheses of each statement that has any. -/

namespace Sys2Proof.Tests

open Sys2Proof.Machine

/-- A core about to run `bytes`, which stand at address `a`, with some registers set. -/
def running (a : Byte) (bytes : List Byte) (regs : List (Fin 8 × Byte)) : State :=
  regs.foldl (fun s p => s.writeReg p.1 p.2) (State.pokeAll a bytes { State.reset with pc := a })

/-- The state one trigger later. -/
def after1 (s : State) : State := State.after 1 s

/-! ### Well-formedness: each check refuses a term (30_encoding.md R87) -/

theorem test_wellFormed_refuses_operand_a :
    ∀ i ∈ [Instr.ldi 8 0, .prn 8, .push 255, .pop 8, .call 16, .jmp 16, .jeq 8, .jne 128, .add 9 0, .sub 8 0,
      .mul 8 0, .div 8 0, .mod 8 0, .and 8 0, .or 8 0, .xor 8 0, .inc 8, .dec 8, .not 8, .cmp 15 0],
    WellFormed i = false := by decide

theorem test_wellFormed_refuses_operand_b :
    ∀ i ∈ [Instr.add 0 8, .sub 0 8, .mul 0 8, .div 0 9, .mod 0 8, .and 0 8, .or 0 8, .xor 0 8, .cmp 0 8],
    WellFormed i = false := by decide

/-- LDI's literal is no register index (R88). -/
theorem test_wellFormed_accepts_any_literal : WellFormed (.ldi 7 255) = true := by decide

/-! ### Decoding: words of R92's table, bit by bit, with operand bytes of R83 -/

theorem test_decode_ldi : decode OpMap.standard [0b10000000, 0b00000011, 0b11111111] = .instr (.ldi 3 255) [] := by decide
theorem test_decode_prn : decode OpMap.standard [0b01000000, 0b00000111] = .instr (.prn 7) [] := by decide
theorem test_decode_push : decode OpMap.standard [0b01000001, 0b00000001] = .instr (.push 1) [] := by decide
theorem test_decode_pop : decode OpMap.standard [0b01000010, 0b00000010] = .instr (.pop 2) [] := by decide
theorem test_decode_call : decode OpMap.standard [0b01000011, 0b00000011] = .instr (.call 3) [] := by decide
theorem test_decode_ret : decode OpMap.standard [0b00000010] = .instr (.ret) [] := by decide
theorem test_decode_jmp : decode OpMap.standard [0b01000100, 0b00000100] = .instr (.jmp 4) [] := by decide
theorem test_decode_jeq : decode OpMap.standard [0b01000101, 0b00000101] = .instr (.jeq 5) [] := by decide
theorem test_decode_jne : decode OpMap.standard [0b01000110, 0b00000110] = .instr (.jne 6) [] := by decide
theorem test_decode_hlt : decode OpMap.standard [0b00000001] = .instr (.hlt) [] := by decide
theorem test_decode_nop : decode OpMap.standard [0b00000000] = .instr (.nop) [] := by decide
theorem test_decode_add : decode OpMap.standard [0b10010000, 0b00000000, 0b00000001] = .instr (.add 0 1) [] := by decide
theorem test_decode_sub : decode OpMap.standard [0b10010001, 0b00000010, 0b00000001] = .instr (.sub 2 1) [] := by decide
theorem test_decode_mul : decode OpMap.standard [0b10010010, 0b00000011, 0b00000001] = .instr (.mul 3 1) [] := by decide
theorem test_decode_div : decode OpMap.standard [0b10010011, 0b00000000, 0b00000111] = .instr (.div 0 7) [] := by decide
theorem test_decode_mod : decode OpMap.standard [0b10010100, 0b00000110, 0b00000001] = .instr (.mod 6 1) [] := by decide
theorem test_decode_and : decode OpMap.standard [0b10010101, 0b00000101, 0b00000001] = .instr (.and 5 1) [] := by decide
theorem test_decode_or : decode OpMap.standard [0b10010110, 0b00000100, 0b00000001] = .instr (.or 4 1) [] := by decide
theorem test_decode_xor : decode OpMap.standard [0b10010111, 0b00000000, 0b00000010] = .instr (.xor 0 2) [] := by decide
theorem test_decode_inc : decode OpMap.standard [0b01010000, 0b00000010] = .instr (.inc 2) [] := by decide
theorem test_decode_dec : decode OpMap.standard [0b01010001, 0b00000011] = .instr (.dec 3) [] := by decide
theorem test_decode_not : decode OpMap.standard [0b01010010, 0b00000001] = .instr (.not 1) [] := by decide
theorem test_decode_cmp : decode OpMap.standard [0b10011000, 0b00000011, 0b00000101] = .instr (.cmp 3 5) [] := by decide

/-- V-DEC, a sample of the unknown bytes. -/
theorem test_decode_unknown :
    ∀ b ∈ [0x03, 0x04, 0x10, 0x20, 0x3F, 0x47, 0x4F, 0x53, 0x60, 0x7F, 0x81, 0x8F, 0x99, 0xA0, 0xBF, 0xC0, 0xFF],
    decode OpMap.standard [b, 0, 0] = .rejected (.unknownOpcode b) := by decide

theorem test_decode_truncated : decode OpMap.standard [0x90, 0] = .rejected .truncated := by decide

/-! ### One step of each instruction, from the vectors named (95_test_vectors.md section 2) -/

/-- V-ADD: 200 + 100. -/
theorem test_add_wraps :
    (let s := after1 (running 0x10 [0x90, 0x00, 0x01] [(0, 200), (1, 100)]); s.reg 0 = 44 ∧ s.reg 1 = 100 ∧ s.pc = 0x13 ∧ s.fl = 0) := by decide

/-- V-ADD: ADD R0,R0. -/
theorem test_add_same_register :
    (let s := after1 (running 0x10 [0x90, 0x00, 0x00] [(0, 21)]); s.reg 0 = 0x2A) := by decide

/-- V-SUB: 3 - 5. -/
theorem test_sub_wraps :
    (let s := after1 (running 0x10 [0x91, 0x00, 0x01] [(0, 3), (1, 5)]); s.reg 0 = 254 ∧ s.pc = 0x13) := by decide

/-- V-MUL: 200 * 2. -/
theorem test_mul_keeps_low_byte :
    (let s := after1 (running 0x10 [0x92, 0x00, 0x01] [(0, 200), (1, 2)]); s.reg 0 = 144) := by decide

/-- V-DIV: 255 / 2. -/
theorem test_div_rounds_down :
    (let s := after1 (running 0x10 [0x93, 0x00, 0x01] [(0, 255), (1, 2)]); s.reg 0 = 127 ∧ s.halted = false) := by decide

/-- V-DIV: 10 / 0, V-FAULT. -/
theorem test_div_by_zero :
    (let s := after1 (running 0x20 [0x93, 0x00, 0x01] [(0, 10)]); s.halted = true ∧ s.cause = .arithmetic ∧ s.info = 0 ∧ s.reg 0 = 10 ∧ s.pc = 0x23 ∧ s.ir = 0x93) := by decide

/-- V-MOD: 255 mod 16. -/
theorem test_mod_remainder :
    (let s := after1 (running 0x10 [0x94, 0x00, 0x01] [(0, 255), (1, 16)]); s.reg 0 = 15) := by decide

/-- V-MOD: 10 mod 0. -/
theorem test_mod_by_zero :
    (let s := after1 (running 0x10 [0x94, 0x00, 0x01] [(0, 10)]); s.cause = .arithmetic ∧ s.reg 0 = 10 ∧ s.pc = 0x13 ∧ s.ir = 0x94) := by decide

/-- V-LOGIC. -/
theorem test_and_bits :
    (let s := after1 (running 0x10 [0x95, 0x00, 0x01] [(0, 204), (1, 170)]); s.reg 0 = 0x88) := by decide

/-- V-LOGIC. -/
theorem test_or_bits :
    (let s := after1 (running 0x10 [0x96, 0x00, 0x01] [(0, 204), (1, 170)]); s.reg 0 = 0xEE) := by decide

/-- V-LOGIC. -/
theorem test_xor_bits :
    (let s := after1 (running 0x10 [0x97, 0x00, 0x01] [(0, 204), (1, 170)]); s.reg 0 = 0x66) := by decide

/-- V-INC. -/
theorem test_inc_wraps :
    (let s := after1 (running 0x10 [0x50, 0x00] [(0, 255)]); s.reg 0 = 0 ∧ s.pc = 0x12) := by decide

/-- V-DEC1. -/
theorem test_dec_wraps :
    (let s := after1 (running 0x10 [0x51, 0x00] [(0, 0)]); s.reg 0 = 0xFF) := by decide

/-- V-DEC1: 51 07. -/
theorem test_dec_moves_sp :
    (let s := after1 (running 0x10 [0x51, 0x07] []); s.sp = 0xF3) := by decide

/-- V-LOGIC. -/
theorem test_not_complements :
    (let s := after1 (running 0x10 [0x52, 0x00] [(0, 165)]); s.reg 0 = 0x5A) := by decide

/-- V-CMP row 4: 0x80 with 0x7F. -/
theorem test_cmp_is_unsigned :
    (let s := after1 (running 0x10 [0x98, 0x00, 0x01] [(0, 128), (1, 127)]); s.fl = 0b010 ∧ s.reg 0 = 0x80 ∧ s.pc = 0x13) := by decide

/-- V-CMP row 8: E stays when L is added. -/
theorem test_cmp_keeps_old_bits :
    (after1 ((running 0x10 [0x98, 0, 1] [(0, 5), (1, 6)]).orFlags 0b001)).fl = 0b101 := by decide

/-- V-LDI: LDI R3,255. -/
theorem test_ldi_literal_above_7 :
    (let s := after1 (running 0x10 [0x80, 0x03, 0xFF] [(3, 1)]); s.reg 3 = 0xFF ∧ s.halted = false ∧ s.pc = 0x13) := by decide

/-- V-PC: LDI R3,0x2A at 0xFE. -/
theorem test_ldi_wraps_round_memory :
    (let s := after1 (running 0xFE [0x80, 0x03, 0x2A] []); s.reg 3 = 0x2A ∧ s.pc = 0x01) := by decide

/-- V-LDI, V-PRN: PRN R0 with a stray byte after it. -/
theorem test_prn_ignores_operand_b :
    (let s := after1 (running 0x10 [0x40, 0x00, 0xFF] [(0, 1)]); s.out = [1] ∧ s.pc = 0x12) := by decide

/-- V-PRN: PRN R7 from the reset state. -/
theorem test_prn_sp_after_reset :
    (let s := after1 (running 0x00 [0x40, 0x07] []); s.out = [244]) := by decide

/-- V-STACK row 4: PUSH R7. -/
theorem test_push_sp_stores_new_sp :
    (let s := after1 (running 0x10 [0x41, 0x07] []); s.sp = 0xF3 ∧ s.mem.read 0xF3 = 0xF3) := by decide

/-- V-STACK row 6: PUSH R0 at SP = 0. -/
theorem test_push_wraps :
    (let s := after1 (running 0x10 [0x41, 0x00] [(0, 17), (7, 0)]); s.sp = 0xFF ∧ s.mem.read 0xFF = 0x11) := by decide

/-- V-STACK row 5: POP R7. -/
theorem test_pop_sp_then_increments :
    (after1 ((running 0x10 [0x42, 7] [(7, 0xF3)]).poke 0xF3 0x20)).sp = 0x21 := by decide

/-- V-STACK row 2: POP R2, the cell keeps its byte. -/
theorem test_pop_loads :
    (let s := after1 ((running 0x10 [0x42, 2] [(7, 0xF3)]).poke 0xF3 0x0A);
      s.reg 2 = 0x0A ∧ s.sp = 0xF4 ∧ s.mem.read 0xF3 = 0x0A) := by decide

/-- V-CTRL: RET. -/
theorem test_ret_pops_pc :
    (let s := after1 ((running 0x10 [0x02] [(7, 0xFF)]).poke 0xFF 0x44); s.pc = 0x44 ∧ s.sp = 0) := by decide

/-- V-CTRL: JEQ looks at E only. -/
theorem test_jeq_taken_on_e :
    (after1 ((running 0x10 [0x45, 2] [(2, 0x15)]).orFlags 0b011)).pc = 0x15 := by decide

theorem test_jeq_falls_through :
    (after1 ((running 0x10 [0x45, 2] [(2, 0x15)]).orFlags 0b110)).pc = 0x12 := by decide

theorem test_jne_falls_through_on_e :
    (after1 ((running 0x10 [0x46, 2] [(2, 0x09)]).orFlags 0b001)).pc = 0x12 := by decide

/-- V-CTRL: JNE with FL = 0. -/
theorem test_jne_taken_before_any_cmp :
    (let s := after1 (running 0x10 [0x46, 0x02] [(2, 9)]); s.pc = 9) := by decide

/-- V-CTRL: 0 is a target. -/
theorem test_jmp_to_zero :
    (let s := after1 (running 0x10 [0x44, 0x00] []); s.pc = 0) := by decide

/-- V-CTRL: CALL. -/
theorem test_call_pushes_nothing :
    (let s := after1 (running 0x10 [0x43, 0x00] [(0, 48)]); s.pc = 0x30 ∧ s.sp = 0xF4 ∧ s.mem = (running 0x10 [0x43, 0] []).mem) := by decide

/-- V-PC: HLT at 0xFF. -/
theorem test_hlt_at_the_last_byte :
    (let s := after1 (running 0xFF [0x01] []); s.halted = true ∧ s.cause = .hlt ∧ s.info = 0 ∧ s.pc = 0 ∧ s.ir = 1) := by decide

/-- V-FAULT: NOP then FF FF. -/
theorem test_nop_ignores_operands :
    (let s := after1 (running 0x20 [0x00, 0xFF, 0xFF] []); s.halted = false ∧ s.pc = 0x21) := by decide

/-! ### The decode errors (V-FAULT) -/

/-- V-FAULT: C1 09 09. -/
theorem test_unknown_opcode :
    (let s := after1 (running 0x20 [0xC1, 0x09, 0x09] []); s.halted = true ∧ s.cause.code = 2 ∧ s.info = 0xC1 ∧ s.ir = 0xC1 ∧ s.pc = 0x20) := by decide

/-- V-FAULT: ADD R9,R10. -/
theorem test_bad_index_operand_a_first :
    (let s := after1 (running 0x20 [0x90, 0x09, 0x0A] []); s.cause.code = 4 ∧ s.info = 9 ∧ s.pc = 0x20 ∧ s.ir = 0x90) := by decide

/-- V-FAULT: DIV R0,R9. -/
theorem test_bad_index_before_division :
    (let s := after1 (running 0x20 [0x93, 0x00, 0x09] [(0, 1)]); s.cause = .badRegisterIndex ∧ s.info = 9) := by decide

/-- V-FAULT: PUSH R255. -/
theorem test_bad_index_before_push :
    (let s := after1 (running 0x20 [0x41, 0xFF] []); s.info = 0xFF ∧ s.sp = 0xF4 ∧ s.cause = .badRegisterIndex) := by decide

/-! ### Reset, the host and the model's interface -/

/-- V-HALTED: a trigger changes nothing. -/
theorem test_halted_is_fixed : after1 (State.reset.halt .hlt 0) = State.reset.halt .hlt 0 := by decide

/-- V-RESET: every register at its reset value, memory kept. -/
theorem test_reset_keeps_memory :
    (let s := ((running 9 [0x90] [(0, 10)]).orFlags 5 |>.halt .arithmetic 0 |>.emit 5).resetCore;
      s.reg 0 = 0 ∧ s.pc = 0 ∧ s.fl = 0 ∧ s.out = [] ∧ s.halted = false ∧ s.mem.read 9 = 0x90) := by decide

/-- The model's choice, entry 1: reset lists no cell, so its memory is canonical. -/
theorem test_reset_memory : State.reset.mem = [] ∧ State.reset.mem.wf := by decide

theorem test_table_word_runs_first :
    (after1 (State.reset.withFetchWord 24 0x2A0380)).reg 3 = 0x2A := by decide

theorem test_poke_after_trigger_is_no_move :
    Platform.event (.poke 0 1) ⟨State.reset, true⟩ = none := by decide

/-! ### Witnesses: the hypotheses of each statement are met together -/

/-- Whether an outcome is a next state. -/
def answers (o : Host.Outcome State Fault Refusal) : Bool :=
  match o with
  | .next _ => true
  | .fault _ => false
  | .refused _ => false

/-- Where a step answers a next state, that state is `after1`: so `answers (step s)` is the hypothesis
`step s = .next t` for `t = after1 s`. -/
theorem step_eq_after1 (s : State) (h : answers (step s) = true) : step s = .next (after1 s) := by
  unfold after1 State.after
  cases e : step s <;> simp_all [answers, State.after]

theorem witness_PairRule_clauses :
    (7 < (8 : Byte).toNat ∧ 7 < (255 : Byte).toNat) ∧ ((7 : Byte).toNat < 8 ∧ 7 < (8 : Byte).toNat) := by decide

theorem witness_OneRule_and_LdiLoadsTheLiteral :
    7 < (8 : Byte).toNat := by decide

theorem witness_DivAndModWriteQuotientAndRemainder :
    (running 0 [] [(0, 255), (1, 1)]).x[(1 : Fin 8)].toNat ≠ 0 := by decide

theorem witness_DivisionByZeroHaltsWithArithmeticFault :
    State.reset.x[(1 : Fin 8)] = 0 ∧ Instr.mod (regByte 0) (regByte 1) ∈
      [Instr.div (regByte 0) (regByte 1), .mod (regByte 0) (regByte 1)] := by decide

theorem witness_NopChangesOnlyIrAndPc :
    (let s := running 0xFF [0] [];
      s.cfg.opmap.Admissible ∧ s.halted = false ∧ s.mem.read s.pc = s.cfg.opmap.nop) := by decide

theorem witness_HaltedCoreTakesNoStep :
    (State.reset.halt .arithmetic 0).halted = true := by decide

theorem witness_StepRunsTheDecodedInstruction :
    (let s := running 0xFE [0x90, 1, 2] [];
      s.halted = false ∧ s.decodedAtPc = .instr (.add 1 2) []) := by decide

theorem witness_UnknownOpcodeHaltsAtDecode :
    State.reset.halted = false ∧ ∀ m ∈ Mnemonic.all, State.reset.cfg.opmap.code m ≠ State.reset.mem.read State.reset.pc := by decide

theorem witness_BadRegisterIndexHaltsBeforeExecute :
    (let s := running 0 [0x93, 7, 8] [];
      s.halted = false ∧ s.decodedAtPc = .instr (.div 7 8) [] ∧ (Instr.div 7 8).firstBadIndex = some 8) := by decide

theorem witness_PcMovesAsTheTableSays :
    (let s := running 0xFF [0x46, 7] [];
      s.cfg.opmap.Admissible ∧ s.halted = false ∧ s.decodedAtPc = .instr (.jne 7) [0xFF] ∧ ¬ (after1 s).Faulted ∧ answers (step s) = true) := by decide

theorem witness_EveryHaltRecordsItsCause :
    ∀ bytes ∈ [[0x01], [0xFF], [0x93, 0, 1], [0x41, 8]],
      (running 0xFF bytes []).cfg.opmap.Admissible ∧ (running 0xFF bytes []).halted = false ∧
      (after1 (running 0xFF bytes [])).halted = true ∧ answers (step (running 0xFF bytes [])) = true := by decide

theorem witness_OnlyHltAndDivisionByZeroHaltInExecute :
    WellFormed .hlt = true ∧ WellFormed (.div 0 7) = true ∧ WellFormed (.add 0 7) = true ∧
      State.reset.halted = false ∧ ∀ i ∈ [Instr.hlt, .div 0 1, .div 0 7, .add 0 7], answers (exec i State.reset) = true := by decide

theorem witness_frames :
    (WellFormed (.div 7 1) = true ∧ (running 0 [] [(1, 1)]).regAt 1 ≠ 0) ∧ WellFormed (.add 7 0) = true ∧
      WellFormed (.cmp 7 7) = true ∧ WellFormed (.push 7) = true ∧ State.reset.mem.wf ∧
      ∀ i ∈ [Instr.div 7 1, .add 7 0, .cmp 7 7, .push 7, .pop 7, .ret, .prn 8, .hlt], answers (exec i State.reset) = true := by decide

theorem witness_OnlyPushWritesMemory_OnlyCmpWritesFlags_OnlyPrnGrowsOut :
    (let s := running 0 [0x41, 0] [];
      s.mem.wf ∧ answers (step s) = true ∧ s.cfg.opmap.decode (s.mem.read s.pc) ≠ some .cmp ∧
      (running 0 [0x98] []).cfg.opmap.decode ((running 0 [0x98] []).mem.read 0) ≠ some .push) := by decide

theorem witness_FlagsAreMonotoneAlongRuns :
    (State.reset.orFlags 0b100).fl.getLsbD 2 = true := by decide

theorem witness_StickyEqualDecidesEveryLaterJump_taken :
    (let s := (running 0 [0x00, 0x45, 2] []).orFlags 0b101;
      s.cfg.opmap.Admissible ∧ s.fl.getLsbD 0 = true ∧ (State.after 1 s).halted = false ∧
      (State.after 1 s).decodedAtPc = .instr (.jeq (regByte 2)) [0xFF] ∧ answers (step (State.after 1 s)) = true) := by decide

theorem witness_StickyEqualDecidesEveryLaterJump_falls_through :
    (let s := (running 0 [0x00, 0x46, 2] []).orFlags 0b101;
      s.cfg.opmap.Admissible ∧ s.fl.getLsbD 0 = true ∧ (State.after 1 s).halted = false ∧
      (State.after 1 s).decodedAtPc = .instr (.jne (regByte 2)) [0xFF] ∧ answers (step (State.after 1 s)) = true) := by decide

theorem witness_OnlyEqualIsEverRead :
    (let s := running 0 [0x90, 0, 1] [];
      (0b110 : Byte).getLsbD 0 = s.fl.getLsbD 0 ∧ s.cfg.opmap.decode (s.mem.read s.pc) ≠ some .jeq ∧
      s.cfg.opmap.decode (s.mem.read s.pc) ≠ some .jne ∧ answers (step s) = true) := by decide

theorem witness_SpIndexMattersOnlyToStackInstructions :
    (∀ r, Instr.add 0 1 ≠ .push r ∧ Instr.add 0 1 ≠ .pop r) ∧ Instr.add 0 1 ≠ .ret ∧ answers (exec (.add 0 1) State.reset) = true := ⟨fun _ => ⟨nofun, nofun⟩, nofun, by decide⟩

theorem witness_HaltIsTerminalAlongRuns :
    (State.after 2 (running 0 [0x00, 0x01] [])).halted = true := by decide

theorem witness_StepKeepsTheInvariant :
    State.reset.cfg.opmap.Admissible ∧ State.reset.Inv ∧ answers (step State.reset) = true := ⟨by decide, ⟨by decide, by decide, rfl, rfl⟩, by decide⟩

theorem witness_PushThenPopCopiesAndRestoresSp :
    (let s := running 0 [] [(0, 9), (7, 0)];
      s.mem.wf ∧ (0 : Fin 8) ≠ s.cfg.spIdx ∧ (1 : Fin 8) ≠ s.cfg.spIdx ∧ (7 : Fin 8) = s.cfg.spIdx ∧
      ∀ i ∈ [Instr.push (regByte 0), .pop (regByte 1), .push (regByte 7), .pop (regByte 7)], answers (exec i s) = true) := by decide

theorem witness_InverseOperationsRestoreTheRegister :
    (0 : Fin 8) ≠ 1 ∧ (running 0 [] [(0, 255), (1, 1)]).x[(1 : Fin 8)].toNat ≠ 0 ∧
      answers (exec (.mul (regByte 0) (regByte 1)) (running 0 [] [(0, 255), (1, 1)])) = true := by decide

theorem witness_PushedByteIsWhatTheNextStepFetches :
    (let s := running 0x10 [0x41, 0] [(0, 1), (7, 0x13)];
      s.mem.wf ∧ s.halted = false ∧ s.decodedAtPc = .instr (.push (regByte 0)) [0xFF] ∧
      (after1 s).pc = (after1 s).x[(after1 s).cfg.spIdx] ∧ answers (step s) = true ∧ answers (step (after1 s)) = true) := by decide

theorem witness_DecodeOfEncodeIsTheInstruction :
    OpMap.standard.Admissible ∧ (0xC0 : Byte).toNat / 64 = 3 ∧ (0xFF : Byte).toNat / 64 = 3 := by decide

theorem witness_DecodedBytesAreTheEncoding :
    decode OpMap.standard [0x98, 255, 7, 1] = .instr (.cmp 255 7) [1] := by decide

/-- CMP's byte and its neighbours in the lowest and in the highest bit (R92). -/
theorem witness_OpcodeIsComparedOnAllEightBits :
    OpMap.standard.Admissible ∧ (0x98 : Byte).getLsbD 0 ≠ (0x99 : Byte).getLsbD 0 ∧
      (0x98 : Byte).getLsbD 7 ≠ (0x18 : Byte).getLsbD 7 ∧ OpMap.standard.decode 0x98 = some .cmp := by decide

theorem witness_UnusedOperandBytesAreIgnored :
    Mnemonic.ret.format = .f0 ∧ Mnemonic.not.format = .f1r := by decide

theorem witness_FetchWordRunsItsInstruction :
    State.reset.mem.wf ∧ decodeTableWord 16 0x0742 = some (.pop 7) := by decide

theorem witness_OnlyResetLeavesTheHaltedState :
    Platform.event .reset ⟨State.reset.halt .hlt 0, true⟩ = some ⟨State.reset, false⟩ := by decide

theorem witness_PokeStoresBeforeTheFirstTrigger :
    (⟨State.reset, false⟩ : Platform).core.mem.wf ∧ (⟨State.reset, false⟩ : Platform).triggered = false ∧
      (⟨State.reset, true⟩ : Platform).triggered = true := by decide

end Sys2Proof.Tests
end

section
/-! SUPPORT. Noninterference of FL (10_state.md R32): an effect, `exec` and a step are each carried over to the state
with another FL, as long as E agrees or the instruction is neither JEQ nor JNE. -/

namespace Sys2Proof.Machine

variable {i : Instr} {s t u : State} {n : Option Byte} {f : Byte}

/-! ### From the effect, the fetched byte and the run status to what `exec` and a step answer -/

/-- The converse of `exec_of_wellFormed`: whatever effect holds is the one `exec` answers with. -/
theorem Effect.exec_eq (h : Effect i s u n) : exec i s = .next (u.pcUpdate n) := by
  cases h with
  | ret | hlt | nop => rfl
  | ldi | prn | push | pop | call | jmp | jeq | jne | inc | dec | not => exact withReg_regByte _ _
  | add | sub | mul | and | or | xor | cmp => exact withRegs_regByte _ _ _
  | div _ _ _ _ hq | div0 _ _ _ hq => simp only [exec, execDiv, withRegs_regByte, divisionAlu, hq]
  | mod _ _ _ _ hr | mod0 _ _ _ hr => simp only [exec, execMod, withRegs_regByte, divisionAlu, hr]

theorem step_of_halted (hs : s.halted = true) : step s = .next s := by
  simp [step, cycle, hs]

theorem step_of_absent (hs : s.halted = false) (ho : s.cfg.opmap.decode (s.mem.read s.pc) = none) :
    step s = .next (s.fetch.raise (.unknownOpcode (s.mem.read s.pc))) := by
  simp [step, cycle, hs, ho]

theorem step_of_decode {m : Mnemonic} (hs : s.halted = false)
    (ho : s.cfg.opmap.decode (s.mem.read s.pc) = some m) :
    step s = exec (m.toInstr (s.mem.read (s.pc + 1)) (s.mem.read (s.pc + 2))) s.fetch := by
  simp [step, cycle, hs, ho, State.operandA, State.operandB]

/-! ### Another FL -/

/-- The PC update reads and writes no flag. -/
theorem State.pcUpdate_set_fl (u : State) (n : Option Byte) (g : Byte) :
    State.pcUpdate n { u with fl := g } = { u.pcUpdate n with fl := g } := by
  cases n <;> rfl

/-- An effect does not depend on FL, but for JEQ's and JNE's next PC, which depends on E. -/
theorem Effect.set_fl (h : Effect i s u n)
    (hf : f.getLsbD 0 = s.fl.getLsbD 0 ∨ i.mnemonic ≠ .jeq ∧ i.mnemonic ≠ .jne) :
    ∃ g, Effect i { s with fl := f } { u with fl := g } n := by
  cases h with
  | jeq r =>
    have hE : State.flE { s with fl := f } = s.flE := hf.resolve_right fun ⟨hne, _⟩ => hne rfl
    exact ⟨f, hE ▸ .jeq r { s with fl := f }⟩
  | jne r =>
    have hE : State.flE { s with fl := f } = s.flE := hf.resolve_right fun ⟨_, hne⟩ => hne rfl
    exact ⟨f, hE ▸ .jne r { s with fl := f }⟩
  | cmp a b => exact ⟨f ||| cmpMask (s.reg a) (s.reg b), .cmp a b { s with fl := f }⟩
  | div a b _ v hq => exact ⟨f, .div a b { s with fl := f } v hq⟩
  | mod a b _ v hr => exact ⟨f, .mod a b { s with fl := f } v hr⟩
  | div0 a b _ hq => exact ⟨f, .div0 a b { s with fl := f } hq⟩
  | mod0 a b _ hr => exact ⟨f, .mod0 a b { s with fl := f } hr⟩
  | ldi | prn | push | pop | call | ret | jmp | hlt | nop | add | sub | mul | and | or | xor | inc | dec | not =>
    exact ⟨f, by constructor⟩

theorem exec_set_fl (h : exec i s = .next t)
    (hf : f.getLsbD 0 = s.fl.getLsbD 0 ∨ i.mnemonic ≠ .jeq ∧ i.mnemonic ≠ .jne) :
    ∃ g, exec i { s with fl := f } = .next { t with fl := g } := by
  obtain ⟨r, hr, rfl⟩ | ⟨-, u, n, he, rfl⟩ := exec_cases h
  · exact ⟨f, exec_of_bad hr _⟩
  · obtain ⟨g, hg⟩ := he.set_fl hf
    exact ⟨g, by rw [hg.exec_eq, State.pcUpdate_set_fl]⟩

theorem step_set_fl (h : step s = .next t)
    (hf : f.getLsbD 0 = s.fl.getLsbD 0 ∨
      s.cfg.opmap.decode (s.mem.read s.pc) ≠ some .jeq ∧ s.cfg.opmap.decode (s.mem.read s.pc) ≠ some .jne) :
    ∃ g, step { s with fl := f } = .next { t with fl := g } := by
  obtain ⟨hs, rfl⟩ | ⟨hs, ho, rfl⟩ | ⟨m, hs, ho, hx⟩ := step_cases h
  · exact ⟨f, step_of_halted hs⟩
  · exact ⟨f, step_of_absent hs ho⟩
  · obtain ⟨g, hg⟩ := exec_set_fl (f := f) hx (by simpa [ho] using hf)
    exact ⟨g, (step_of_decode (s := { s with fl := f }) hs ho).trans hg⟩

/-- Settles O33: what a step can do (`step_cases`), carried over to another FL by `exec_set_fl`. -/
theorem onlyEqualIsEverRead : Obligations.OnlyEqualIsEverRead :=
  fun _ _ _ => step_set_fl

end Sys2Proof.Machine
end

section
/-! SUPPORT. The opcode map's lookup as a comparison of whole bytes (30_encoding.md R84). -/

namespace Sys2Proof

/-- Under an admissible map the lookup is the inverse of `OPMAP` (R93). -/
theorem OpMap.Admissible.decode_eq_some_iff {om : OpMap} (h : om.Admissible) {op : Byte} {m : Mnemonic} :
    om.decode op = some m ↔ om.code m = op :=
  ⟨OpMap.code_of_decode, fun e => e ▸ h.decode_code m⟩

/-- Bytes that decode to one mnemonic are equal, both being its opcode; the map need not be admissible. -/
theorem OpMap.eq_of_decode_eq_some {om : OpMap} {op op' : Byte} {m : Mnemonic} (h : om.decode op = some m)
    (h' : om.decode op' = some m) : op = op' :=
  (OpMap.code_of_decode h).symm.trans (OpMap.code_of_decode h')

namespace Machine

/-- Settles O45: the lookup inverts `OPMAP`, and two bytes of one mnemonic would agree in every bit. -/
theorem opcodeIsComparedOnAllEightBits : Obligations.OpcodeIsComparedOnAllEightBits :=
  fun _ hadm => ⟨fun _ _ => hadm.decode_eq_some_iff, fun _ _ _ k hbit hop hop' =>
    hbit (congrArg (·.getLsbD k) (OpMap.eq_of_decode_eq_some hop hop'))⟩

end Machine
end Sys2Proof
end

section
/-! SUPPORT. RET in plain numbers (43_control.md R192): the ALU's INC as a sum reduced modulo 256, and SP's increment by
it as one update of the register file. -/

namespace Sys2Proof.Machine

/-- INC in plain numbers (41_alu.md R153), the spelling the statements use; `aluInc_eq` gives it as a sum of words. -/
theorem aluInc_eq_ofNat (v : Byte) : aluInc v = BitVec.ofNat 8 (v.toNat + 1) := by
  rw [aluInc, ← trunc8_natCast, Nat.cast_add_one]

theorem State.incSp_eq_set (s : State) :
    s.incSp = { s with x := s.x.set s.cfg.spIdx (BitVec.ofNat 8 (s.x[s.cfg.spIdx].toNat + 1)) } := by
  rw [← aluInc_eq_ofNat]
  rfl

/-- Settles O13: RET's effect pops the byte at the old SP into PC and increments SP, by `State.incSp_eq_set`. -/
theorem retPopsTheNextPc : Obligations.RetPopsTheNextPc := by
  refine ⟨⟨rfl, fun _ => rfl⟩, fun s => ?_⟩
  rw [(Effect.ret s).exec_eq, State.pcUpdate_eq, State.incSp_eq_set]
  rfl

end Sys2Proof.Machine
end

section
/-! SUPPORT. What an effect and `exec` can do to each part of the state: the configuration, IR and PC stay, and FL,
memory, `out` and the run status each change under few instructions. -/

namespace Sys2Proof.Machine

variable {i : Instr} {s t u : State} {n : Option Byte}

/-! ### Registers named by an operand byte -/

@[simp] theorem State.regAt_regByte (s : State) (r : Fin 8) : s.regAt (regByte r) = s.reg r := by
  simp [State.regAt, State.reg]

theorem eq_zero_of_aluDiv {va vb : Byte} (h : aluDiv va vb = none) : vb = 0 := by
  simpa [aluDiv_eq] using h

theorem eq_zero_of_aluMod {va vb : Byte} (h : aluMod va vb = none) : vb = 0 := by
  simpa [aluMod_eq] using h

theorem ne_zero_of_aluDiv {va vb v : Byte} (h : aluDiv va vb = some v) : vb ≠ 0 := by
  rintro rfl
  simp [aluDiv_eq] at h

theorem ne_zero_of_aluMod {va vb v : Byte} (h : aluMod va vb = some v) : vb ≠ 0 := by
  rintro rfl
  simp [aluMod_eq] at h

/-! ### One part of the state at a time -/

/-- `exec_cases` with the two updates written as record updates, so that every field of the answer but PC is that of
the handler's state by computation. -/
theorem exec_effect (h : exec i s = .next t) :
    (∃ r, i.firstBadIndex = some r ∧ t = s.badIndexHalt r) ∨
    (WellFormed i = true ∧ ∃ u n, Effect i s u n ∧ t = { u with pc := n.getD u.defaultNext }) := by
  obtain hbad | ⟨hw, u, n, he, rfl⟩ := exec_cases h
  · exact .inl hbad
  · exact .inr ⟨hw, u, n, he, State.pcUpdate_eq u n⟩

theorem Effect.cfg_eq (h : Effect i s u n) : u.cfg = s.cfg := by
  cases h <;> rfl

theorem Effect.ir_eq (h : Effect i s u n) : u.ir = s.ir := by
  cases h <;> rfl

/-- The PC update is the only write to PC (40_dispatch.md R121). -/
theorem Effect.pc_eq (h : Effect i s u n) : u.pc = s.pc := by
  cases h <;> rfl

theorem Effect.defaultNext_eq (h : Effect i s u n) : u.defaultNext = s.defaultNext := by
  rw [State.defaultNext, h.pc_eq, h.ir_eq, State.defaultNext]

/-- Only CMP writes FL, by ORing in the bit of the relation (10_state.md R31). -/
theorem Effect.fl_cases (h : Effect i s u n) :
    u.fl = s.fl ∨
      ∃ a b, i = .cmp (regByte a) (regByte b) ∧ u.fl = s.fl ||| cmpMask (s.reg a) (s.reg b) := by
  cases h with
  | cmp a b => exact .inr ⟨a, b, rfl, rfl⟩
  | _ => exact .inl rfl

/-- Only PUSH writes memory, and it stores one byte at the decremented SP (20_memory.md R52). -/
theorem Effect.mem_cases (h : Effect i s u n) :
    u.mem = s.mem ∨
      ∃ r, i = .push (regByte r) ∧
        u.mem = s.mem.write (s.sp - 1) (if s.cfg.spIdx = r then s.sp - 1 else s.reg r) := by
  cases h with
  | push r => exact .inr ⟨r, rfl, by rw [pushReg_eq]; rfl⟩
  | _ => exact .inl rfl

/-- Only PRN writes `out` (10_state.md R38). -/
theorem Effect.out_cases (h : Effect i s u n) :
    u.out = s.out ∨ ∃ r, i = .prn (regByte r) ∧ u.out = s.out ++ [s.reg r] := by
  cases h with
  | prn r => exact .inr ⟨r, rfl, rfl⟩
  | _ => exact .inl rfl

/-- A handler leaves the run status, or is HLT's, or takes the arithmetic fault (40_dispatch.md R120). -/
theorem Effect.status_cases (h : Effect i s u n) :
    u.status = s.status ∨ (i = .hlt ∧ u = s.halt .hlt 0 ∧ n = none) ∨
      ∃ a b, (i = .div (regByte a) (regByte b) ∨ i = .mod (regByte a) (regByte b)) ∧
        s.reg b = 0 ∧ u = s.halt .arithmetic 0 ∧ n = none := by
  cases h with
  | hlt => exact .inr (.inl ⟨rfl, rfl, rfl⟩)
  | div0 a b _ hq =>
    have hb := eq_zero_of_aluDiv hq
    exact .inr (.inr ⟨a, b, .inl rfl, hb, by rw [hb]; rfl, rfl⟩)
  | mod0 a b _ hr =>
    have hb := eq_zero_of_aluMod hr
    exact .inr (.inr ⟨a, b, .inr rfl, hb, by rw [hb]; rfl, rfl⟩)
  | _ => exact .inl rfl

/-! ### The same for `exec`, bad register bytes included -/

theorem exec_cfg (h : exec i s = .next t) : t.cfg = s.cfg := by
  obtain ⟨r, -, rfl⟩ | ⟨-, u, n, he, rfl⟩ := exec_effect h
  · rfl
  · exact he.cfg_eq

theorem exec_ir (h : exec i s = .next t) : t.ir = s.ir := by
  obtain ⟨r, -, rfl⟩ | ⟨-, u, n, he, rfl⟩ := exec_effect h
  · rfl
  · exact he.ir_eq

theorem exec_fl_cases (h : exec i s = .next t) :
    t.fl = s.fl ∨
      ∃ a b, i = .cmp (regByte a) (regByte b) ∧ t.fl = s.fl ||| cmpMask (s.reg a) (s.reg b) := by
  obtain ⟨r, -, rfl⟩ | ⟨-, u, n, he, rfl⟩ := exec_effect h
  · exact .inl rfl
  · exact he.fl_cases

theorem exec_mem_cases (h : exec i s = .next t) :
    t.mem = s.mem ∨
      ∃ r, i = .push (regByte r) ∧
        t.mem = s.mem.write (s.sp - 1) (if s.cfg.spIdx = r then s.sp - 1 else s.reg r) := by
  obtain ⟨r, -, rfl⟩ | ⟨-, u, n, he, rfl⟩ := exec_effect h
  · exact .inl rfl
  · exact he.mem_cases

theorem exec_out_cases (h : exec i s = .next t) :
    t.out = s.out ∨ ∃ r, i = .prn (regByte r) ∧ t.out = s.out ++ [s.reg r] := by
  obtain ⟨r, -, rfl⟩ | ⟨-, u, n, he, rfl⟩ := exec_effect h
  · exact .inl rfl
  · exact he.out_cases

end Sys2Proof.Machine
end

section
/-! SUPPORT. Steps and runs: a step always answers a next state, what it can do to the configuration, IR and FL, and the
one induction along a run. -/

namespace Sys2Proof.Machine

variable {i : Instr} {s t : State}

/-! ### Every state has a successor (40_dispatch.md R125) -/

theorem exec_total (i : Instr) (s : State) : ∃ t, exec i s = .next t := by
  obtain hw | ⟨r, hr⟩ := wellFormed_or_bad i
  · obtain ⟨u, n, -, hx⟩ := exec_of_wellFormed s hw
    exact ⟨_, hx⟩
  · exact ⟨_, exec_of_bad hr s⟩

theorem step_total (s : State) : ∃ t, step s = .next t := by
  cases hs : s.halted with
  | true => exact ⟨s, step_of_halted hs⟩
  | false =>
    cases ho : s.cfg.opmap.decode (s.mem.read s.pc) with
    | none => exact ⟨_, step_of_absent hs ho⟩
    | some m => rw [step_of_decode hs ho]; exact exec_total _ _

/-! ### What a step can do -/

theorem mnemonic_eq_of_toInstr {m : Mnemonic} {a b : Byte} (h : m.toInstr a b = i) : m = i.mnemonic := by
  rw [← h, Instr.mnemonic_toInstr]

theorem step_cfg (h : step s = .next t) : t.cfg = s.cfg := by
  obtain ⟨-, rfl⟩ | ⟨-, -, rfl⟩ | ⟨m, -, -, hx⟩ := step_cases h
  · rfl
  · rfl
  · simpa using exec_cfg hx

/-- A step of a running core loads IR, and nothing after the fetch writes it (10_state.md R28). -/
theorem step_ir (h : step s = .next t) (hs : s.halted = false) : t.ir = s.mem.read s.pc := by
  obtain ⟨hh, -⟩ | ⟨-, -, rfl⟩ | ⟨m, -, -, hx⟩ := step_cases h
  · simp [hs] at hh
  · rfl
  · exact exec_ir hx

theorem step_fl_cases (h : step s = .next t) :
    t.fl = s.fl ∨ s.cfg.opmap.decode (s.mem.read s.pc) = some .cmp ∧
      ∃ a b, t.fl = s.fl ||| cmpMask (s.reg a) (s.reg b) := by
  obtain ⟨-, rfl⟩ | ⟨-, -, rfl⟩ | ⟨m, -, ho, hx⟩ := step_cases h
  · exact .inl rfl
  · exact .inl rfl
  · obtain hfl | ⟨a, b, hi, hfl⟩ := exec_fl_cases hx
    · exact .inl hfl
    · obtain rfl := mnemonic_eq_of_toInstr hi
      exact .inr ⟨ho, a, b, hfl⟩

theorem step_keeps_flag (h : step s = .next t) {k : Nat} (hk : s.fl.getLsbD k = true) : t.fl.getLsbD k = true := by
  obtain hfl | ⟨-, a, b, hfl⟩ := step_fl_cases h <;> simp [hfl, hk]

/-! ### Runs -/

theorem State.after_succ (h : step s = .next t) (n : Nat) : State.after (n + 1) s = State.after n t := by
  simp [State.after, h]

/-- What every step keeps holds along every run. -/
theorem State.after_induction {P : State → Prop} (hstep : ∀ s t, step s = .next t → P s → P t) (n : Nat)
    {s : State} (hs : P s) : P (State.after n s) := by
  induction n generalizing s with
  | zero => exact hs
  | succ n ih =>
    obtain ⟨t, ht⟩ := step_total s
    rw [State.after_succ ht]
    exact ih (hstep s t ht hs)

theorem State.after_add (k n : Nat) (s : State) : State.after (k + n) s = State.after n (State.after k s) := by
  induction k generalizing s with
  | zero => rw [Nat.zero_add]; rfl
  | succ k ih =>
    obtain ⟨t, ht⟩ := step_total s
    rw [Nat.succ_add, State.after_succ ht, State.after_succ ht, ih]

theorem State.after_of_halted (hs : s.halted = true) (n : Nat) : State.after n s = s := by
  induction n with
  | zero => rfl
  | succ n ih => rw [State.after_succ (step_of_halted hs), ih]

theorem State.after_keeps_flag {k : Nat} (hk : s.fl.getLsbD k = true) (n : Nat) :
    (State.after n s).fl.getLsbD k = true :=
  State.after_induction (P := fun s => s.fl.getLsbD k = true) (fun _ _ h => step_keeps_flag h) n hk

theorem State.after_cfg (n : Nat) (s : State) : (State.after n s).cfg = s.cfg :=
  State.after_induction (P := fun t => t.cfg = s.cfg) (fun _ _ h ht => (step_cfg h).trans ht) n rfl

/-- Settles O30: a step only ORs into FL, so "bit `k` is set" is kept by every step of the run. -/
theorem flagsAreMonotoneAlongRuns : Obligations.FlagsAreMonotoneAlongRuns :=
  fun n _ _ hk => State.after_keeps_flag hk n

/-- Settles O36: every step keeps the configuration. -/
theorem configurationNeverChanges : Obligations.ConfigurationNeverChanges :=
  State.after_cfg

/-- Settles O37: the run goes on from its `k`-th state, and a halted core takes no step. -/
theorem haltIsTerminalAlongRuns : Obligations.HaltIsTerminalAlongRuns := by
  intro k n s hk
  rw [State.after_add, State.after_of_halted hk]

/-- Settles O24: the three ways of a step each answer a next state. -/
theorem everyStateHasASuccessor : Obligations.EveryStateHasASuccessor :=
  step_total

/-- Settles O17: the first line of a step. -/
theorem haltedCoreTakesNoStep : Obligations.HaltedCoreTakesNoStep :=
  fun _ => step_of_halted

end Sys2Proof.Machine
end

section
/-! SUPPORT. Encoding: the decoder and the encoder are inverse to each other, and what is decoded at PC is what the step
runs (30_encoding.md R80, R83, R89, R93). -/

namespace Sys2Proof

/-! ### Operand bytes -/

/-- A format without operands ignores both bytes (R89). -/
theorem Mnemonic.toInstr_of_f0 {m : Mnemonic} (h : m.format = .f0) (a b a' b' : Byte) :
    m.toInstr a b = m.toInstr a' b' := by
  cases m <;> simp [Mnemonic.format] at h <;> rfl

/-- A format with one register ignores the second byte (R89). -/
theorem Mnemonic.toInstr_of_f1r {m : Mnemonic} (h : m.format = .f1r) (a b b' : Byte) :
    m.toInstr a b = m.toInstr a b' := by
  cases m <;> simp [Mnemonic.format] at h <;> rfl

theorem Instr.operandBytes_toInstr (m : Mnemonic) (a b : Byte) :
    (m.toInstr a b).operandBytes = [a, b].take m.format.operandCount := by
  cases m <;> rfl

theorem decodeOperands_operandBytes (i : Instr) (rest : List Byte) :
    decodeOperands i.mnemonic (i.operandBytes ++ rest) = .instr i rest := by
  cases i <;> rfl

/-- With the two bytes that the engine always reads, no instruction is cut short (R80, R86). -/
theorem decodeOperands_pair (m : Mnemonic) (a b : Byte) :
    decodeOperands m [a, b] = .instr (m.toInstr a b) ([a, b].drop m.format.operandCount) := by
  cases m <;> rfl

/-- The operands read are the first bytes, as many as the format has (R83). -/
theorem operandBytes_of_decodeOperands {m : Mnemonic} {bytes rest : List Byte} {i : Instr}
    (h : decodeOperands m bytes = .instr i rest) : i.mnemonic = m ∧ bytes = i.operandBytes ++ rest := by
  unfold decodeOperands at h
  split at h
  case h_5 => cases h
  all_goals
    obtain ⟨rfl, rfl⟩ := Decoded.instr.inj h
    rename_i hfmt
    simp [Instr.operandBytes_toInstr, hfmt, Format.operandCount]

/-! ### Whole instructions -/

theorem decode_of_some {om : OpMap} {op : Byte} {m : Mnemonic} (h : om.decode op = some m) (rest : List Byte) :
    decode om (op :: rest) = decodeOperands m rest := by
  simp [decode, h]

/-- What the decoder accepts starts with an opcode of the map (R93). -/
theorem opcode_of_decode {om : OpMap} {bytes rest : List Byte} {i : Instr} (h : decode om bytes = .instr i rest) :
    ∃ op tail m, bytes = op :: tail ∧ om.decode op = some m ∧ decodeOperands m tail = .instr i rest := by
  cases bytes with
  | nil => cases h
  | cons op tail =>
    cases hm : om.decode op with
    | none => simp [decode, hm] at h
    | some m => exact ⟨op, tail, m, rfl, hm, (decode_of_some hm tail).symm.trans h⟩

namespace Machine

/-- Settles O43: the lookup finds the mnemonic at its opcode, and its format takes the operand bytes back. -/
theorem decodeOfEncodeIsTheInstruction : Obligations.DecodeOfEncodeIsTheInstruction :=
  fun _ i rest hadm =>
    (decode_of_some (hadm.decode_code i.mnemonic) _).trans (decodeOperands_operandBytes i rest)

/-- Settles O44: the opcode byte is the map's entry for the mnemonic found, and the operands are the bytes read. -/
theorem decodedBytesAreTheEncoding : Obligations.DecodedBytesAreTheEncoding := by
  intro om bytes rest i h
  obtain ⟨op, tail, m, rfl, hm, hops⟩ := opcode_of_decode h
  obtain ⟨rfl, rfl⟩ := operandBytes_of_decodeOperands hops
  rw [← OpMap.code_of_decode hm]
  rfl

/-- Settles O49: format by format. -/
theorem unusedOperandBytesAreIgnored : Obligations.UnusedOperandBytesAreIgnored :=
  fun _ a b a' b' => ⟨fun h => Mnemonic.toInstr_of_f0 h a b a' b', fun h => Mnemonic.toInstr_of_f1r h a b b'⟩

/-! ### The instruction at PC -/

/-- What is decoded at PC is the mnemonic of the opcode byte, made an instruction with the two bytes after it. -/
theorem mnemonic_of_decodedAtPc {s : State} {i : Instr} {rest : List Byte} (h : s.decodedAtPc = .instr i rest) :
    s.cfg.opmap.decode (s.mem.read s.pc) = some i.mnemonic ∧
      i.mnemonic.toInstr (s.mem.read (s.pc + 1)) (s.mem.read (s.pc + 2)) = i := by
  obtain ⟨op, tail, m, hbytes, hm, hops⟩ := opcode_of_decode h
  obtain ⟨rfl, rfl⟩ := List.cons.inj hbytes
  rw [decodeOperands_pair] at hops
  obtain ⟨hi, -⟩ := Decoded.instr.inj hops
  obtain rfl := mnemonic_eq_of_toInstr hi
  exact ⟨hm, hi⟩

theorem step_of_decodedAtPc {s : State} {i : Instr} {rest : List Byte} (hs : s.halted = false)
    (h : s.decodedAtPc = .instr i rest) : step s = exec i s.fetch := by
  obtain ⟨hm, hi⟩ := mnemonic_of_decodedAtPc h
  rw [step_of_decode hs hm, hi]

/-- Settles O18: the step reads the same three bytes as the decoder. -/
theorem stepRunsTheDecodedInstruction : Obligations.StepRunsTheDecodedInstruction :=
  fun _ _ _ => step_of_decodedAtPc

/-- Settles O20: the operand check is the first thing `exec` does. -/
theorem badRegisterIndexHaltsBeforeExecute : Obligations.BadRegisterIndexHaltsBeforeExecute :=
  fun s _ _ _ hs hi hr => (step_of_decodedAtPc hs hi).trans (exec_of_bad hr s.fetch)

/-- Settles O19: no mnemonic has the byte, so the lookup finds none and the step ends at decode. -/
theorem unknownOpcodeHaltsAtDecode : Obligations.UnknownOpcodeHaltsAtDecode := by
  intro s hs hcode
  cases ho : s.cfg.opmap.decode (s.mem.read s.pc) with
  | none => exact step_of_absent hs ho
  | some m => exact absurd (OpMap.code_of_decode ho) (hcode m)

end Machine
end Sys2Proof
end

section
/-! SUPPORT. Counting the bytes that are no opcode (30_encoding.md R94, R96). -/

namespace Sys2Proof

/-- A byte is absent from the map exactly when it is none of the 23 opcodes. -/
theorem OpMap.decode_eq_none_iff {om : OpMap} {op : Byte} :
    om.decode op = none ↔ op ∉ Mnemonic.all.map om.code := by
  simp [OpMap.decode]

theorem OpMap.Admissible.card_opcodes {om : OpMap} (h : om.Admissible) :
    ((Mnemonic.all.map om.code).map BitVec.toNat).toFinset.card = 23 := by
  rw [List.toFinset_card_of_nodup (h.1.map fun _ _ => BitVec.eq_of_toNat_eq)]
  rfl

/-- The absent bytes, as numbers: those below 256 that are not the number of an opcode. -/
theorem OpMap.filter_absent (om : OpMap) :
    (Finset.range 256).filter (fun n => om.decode (BitVec.ofNat 8 n) = none) =
      Finset.range 256 \ ((Mnemonic.all.map om.code).map BitVec.toNat).toFinset := by
  ext n
  simp only [Finset.mem_filter, Finset.mem_sdiff, List.mem_toFinset, OpMap.decode_eq_none_iff,
    List.mem_map (f := BitVec.toNat), Finset.mem_range]
  refine and_congr_right fun hn => not_congr ⟨fun hop => ⟨_, hop, by simp; omega⟩, ?_⟩
  rintro ⟨op, hop, rfl⟩
  simpa using hop

theorem OpMap.Admissible.decode_of_count_three {om : OpMap} (h : om.Admissible) {op : Byte} (hop : op.toNat / 64 = 3) :
    om.decode op = none := by
  cases e : om.decode op with
  | none => rfl
  | some m =>
    have hc : m.format.operandCount = 3 := by
      rw [← h.count_code m, OpMap.code_of_decode e, opcodeCount_eq, hop]
    cases hf : m.format <;> simp [hf, Format.operandCount] at hc

namespace Machine

/-- Settles O46: 23 different bytes of 256 are opcodes, and no format has three operand bytes. -/
theorem unknownOpcodesAre233 : Obligations.UnknownOpcodesAre233 := by
  refine fun om hadm => ⟨?_, fun _ => hadm.decode_of_count_three⟩
  have hsub : ((Mnemonic.all.map om.code).map BitVec.toNat).toFinset ⊆ Finset.range 256 := by
    intro n hn
    obtain ⟨op, -, rfl⟩ := List.mem_map.1 (List.mem_toFinset.1 hn)
    exact Finset.mem_range.2 op.isLt
  calc ((List.range 256).filter fun n => om.decode (BitVec.ofNat 8 n) = none).length
      = ((Finset.range 256).filter fun n => om.decode (BitVec.ofNat 8 n) = none).card := rfl
    _ = 233 := by
      rw [om.filter_absent, Finset.card_sdiff_of_subset hsub, hadm.card_opcodes, Finset.card_range]

end Machine
end Sys2Proof
end

section
/-! SUPPORT. The invariant of the machine: each of its three parts is kept by every step (20_memory.md R50, 10_state.md
R33, 60_exceptions.md R215). -/

namespace Sys2Proof.Machine

variable {i : Instr} {s t : State}

/-! ### Canonical memory -/

theorem exec_mem_wf (h : exec i s = .next t) (hw : s.mem.wf) : t.mem.wf := by
  obtain hm | ⟨r, -, hm⟩ := exec_mem_cases h
  · rwa [hm]
  · rw [hm]; exact Memory.write_wf hw _ _

theorem step_mem_wf (h : step s = .next t) (hw : s.mem.wf) : t.mem.wf := by
  obtain ⟨-, rfl⟩ | ⟨-, -, rfl⟩ | ⟨m, -, -, hx⟩ := step_cases h
  · exact hw
  · exact hw
  · exact exec_mem_wf hx hw

/-! ### FL's upper bits -/

/-- A comparison selects one of the three flag bits (41_alu.md R160). -/
theorem cmpMask_cases (va vb : Byte) :
    cmpMask va vb = 0b001 ∨ cmpMask va vb = 0b010 ∨ cmpMask va vb = 0b100 := by
  unfold cmpMask
  split
  · exact .inl rfl
  · split
    · exact .inr (.inl rfl)
    · exact .inr (.inr rfl)

theorem cmpMask_lt (va vb : Byte) : (cmpMask va vb).toNat < 8 := by
  obtain h | h | h := cmpMask_cases va vb <;> rw [h] <;> decide

theorem step_fl_low (h : step s = .next t) (hfl : s.fl.toNat < 8) : t.fl.toNat < 8 := by
  obtain e | ⟨-, a, b, e⟩ := step_fl_cases h
  · rwa [e]
  · rw [e, BitVec.toNat_or]
    exact Nat.or_lt_two_pow (n := 3) hfl (cmpMask_lt _ _)

/-! ### The run status -/

theorem State.statusConsistent_iff_of_running (hs : s.halted = false) :
    s.StatusConsistent ↔ s.status = (false, .none, 0) := by
  unfold State.StatusConsistent State.status
  cases hc : s.cause <;> simp [hs]

/-- An instruction without operands has no byte to check. -/
theorem firstBadIndex_of_f0 (h : i.mnemonic.format = .f0) : i.firstBadIndex = none := by
  cases i <;> simp [Instr.mnemonic, Mnemonic.format] at h <;> rfl

theorem format_ne_f0_of_bad {r : Byte} (h : i.firstBadIndex = some r) : i.mnemonic.format ≠ .f0 := by
  intro hf
  simp [firstBadIndex_of_f0 hf] at h

/-- A running core's instruction leaves the run status or records its halt (60_exceptions.md R215). -/
theorem exec_statusConsistent (h : exec i s = .next t) (hs : s.halted = false) (hc : s.StatusConsistent)
    (ho : s.cfg.opmap.decode s.ir = some i.mnemonic) : t.StatusConsistent := by
  obtain ⟨r, hr, rfl⟩ | ⟨-, u, n, he, rfl⟩ := exec_effect h
  · exact ⟨rfl, gt_of_bad hr, _, ho, format_ne_f0_of_bad hr⟩
  · obtain hst | ⟨rfl, rfl, -⟩ | ⟨a, b, hi, -, rfl, -⟩ := he.status_cases
    · rw [State.statusConsistent_iff_of_running hs] at hc
      have hst' : State.status { u with pc := n.getD u.defaultNext } = (false, .none, 0) := hst.trans hc
      exact (State.statusConsistent_iff_of_running (congrArg Prod.fst hst')).2 hst'
    · exact ⟨rfl, rfl, ho⟩
    · exact ⟨rfl, rfl, hi.imp (by rintro rfl; exact ho) (by rintro rfl; exact ho)⟩

/-- The fetch of a running core touches no part of the run status. -/
theorem State.fetch_statusConsistent (hs : s.halted = false) (hc : s.StatusConsistent) : s.fetch.StatusConsistent :=
  (State.statusConsistent_iff_of_running (s := s.fetch) hs).2 ((State.statusConsistent_iff_of_running hs).1 hc)

theorem step_statusConsistent (h : step s = .next t) (hc : s.StatusConsistent) : t.StatusConsistent := by
  obtain ⟨-, rfl⟩ | ⟨-, ho, rfl⟩ | ⟨m, hs, ho, hx⟩ := step_cases h
  · exact hc
  · exact ⟨rfl, rfl, ho⟩
  · exact exec_statusConsistent hx hs (State.fetch_statusConsistent hs hc) (by simpa using ho)

/-- Settles O38: memory, FL and the run status, each by the lemma of its part. -/
theorem stepKeepsTheInvariant : Obligations.StepKeepsTheInvariant :=
  fun _ _ _ ⟨hmem, hfl, hst⟩ h => ⟨step_mem_wf h hmem, step_fl_low h hfl, step_statusConsistent h hst⟩

theorem State.initial_inv (cfg : Config) {m : Memory} (hm : m.wf) : (State.initial cfg m).Inv :=
  ⟨hm, show (0 : Byte).toNat < 8 by decide, rfl, rfl⟩

/-- Settles O39: the reset state is the start of a run with the empty memory. -/
theorem resetMeetsTheInvariant : Obligations.ResetMeetsTheInvariant :=
  ⟨State.initial_inv _ Memory.nil_wf, fun cfg _ => State.initial_inv cfg⟩

end Sys2Proof.Machine
end

section
/-! SUPPORT. What a whole step can write: FL by CMP alone, memory by PUSH alone, `out` by PRN alone. -/

namespace Sys2Proof.Machine

variable {s t : State}

theorem step_mem_cases (h : step s = .next t) :
    t.mem = s.mem ∨
      s.cfg.opmap.decode (s.mem.read s.pc) = some .push ∧ ∃ v, t.mem = s.mem.write (s.sp - 1) v := by
  obtain ⟨-, rfl⟩ | ⟨-, -, rfl⟩ | ⟨m, -, ho, hx⟩ := step_cases h
  · exact .inl rfl
  · exact .inl rfl
  · obtain hm | ⟨r, hi, hm⟩ := exec_mem_cases hx
    · exact .inl hm
    · obtain rfl := mnemonic_eq_of_toInstr hi
      exact .inr ⟨ho, _, hm⟩

/-- Settles O28: memory is as it was, or PUSH has stored one byte at the decremented SP. -/
theorem onlyPushWritesMemory : Obligations.OnlyPushWritesMemory := by
  intro s t hw h
  obtain hm | ⟨ho, v, hm⟩ := step_mem_cases h
  · exact ⟨fun _ => hm, fun a _ => by rw [hm]⟩
  · refine ⟨fun hne => absurd ho hne, fun a ha => ?_⟩
    rw [hm, Memory.read_write hw]
    exact if_neg ha

/-- Settles O29: the mask ORed into FL is one of the three flag bits. -/
theorem onlyCmpWritesFlags : Obligations.OnlyCmpWritesFlags := by
  intro s t h
  obtain hfl | ⟨ho, a, b, hfl⟩ := step_fl_cases h
  · exact ⟨fun _ => hfl, .inl hfl⟩
  · refine ⟨fun hne => absurd ho hne, .inr ?_⟩
    rw [hfl]
    exact (cmpMask_cases _ _).imp (congrArg _) (Or.imp (congrArg _) (congrArg _))

/-- Settles O32: the register PRN names is the byte after the opcode. -/
theorem onlyPrnGrowsOut : Obligations.OnlyPrnGrowsOut := by
  intro s t h
  obtain ⟨-, rfl⟩ | ⟨-, -, rfl⟩ | ⟨m, -, ho, hx⟩ := step_cases h
  · exact .inl rfl
  · exact .inl rfl
  · obtain hout | ⟨r, hi, hout⟩ := exec_out_cases hx
    · exact .inl hout
    · obtain rfl := mnemonic_eq_of_toInstr hi
      have hr : s.mem.read (s.pc + 1) = regByte r := Instr.prn.inj hi
      exact .inr ⟨ho, by rw [hout, hr, State.regAt_regByte]; rfl⟩

end Sys2Proof.Machine
end

section
/-! SUPPORT. Where PC goes and when a step halts (10_state.md R27, 40_dispatch.md R120, R121, 60_exceptions.md R215). -/

namespace Sys2Proof.Machine

variable {i : Instr} {s t u : State} {n : Option Byte}

/-! ### The next PC -/

/-- After the fetch the default advance is the length of the instruction (40_dispatch.md R121, 30_encoding.md R82). -/
theorem State.fetch_defaultNext {m : Mnemonic} (hadm : s.cfg.opmap.Admissible)
    (ho : s.cfg.opmap.decode (s.mem.read s.pc) = some m) :
    s.fetch.defaultNext = s.pc + BitVec.ofNat 8 (1 + m.format.operandCount) := by
  rw [State.defaultNext_eq, State.fetch_pc, State.fetch_ir, ← OpMap.code_of_decode ho, hadm.count_code,
    BitVec.add_assoc, BitVec.ofNat_add]
  rfl

/-- JEQ's next PC (43_control.md R196). -/
theorem State.jeq_nextPc (s : State) (v d : Byte) :
    (if s.flE then some v else none).getD d = if s.fl.getLsbD 0 = true then v else d := by
  unfold State.flE
  cases s.fl.getLsbD 0 <;> rfl

/-- JNE's next PC (43_control.md R198). -/
theorem State.jne_nextPc (s : State) (v d : Byte) :
    (if s.flE then none else some v).getD d = if s.fl.getLsbD 0 = false then v else d := by
  unfold State.flE
  cases s.fl.getLsbD 0 <;> rfl

/-- Settles O21: the handler's own next PC, else the default advance by the length of the instruction. -/
theorem pcMovesAsTheTableSays : Obligations.PcMovesAsTheTableSays := by
  intro s t i rest hadm hs hdec h hnf
  rw [step_of_decodedAtPc hs hdec] at h
  obtain ⟨r, -, rfl⟩ | ⟨-, u, n, he, rfl⟩ := exec_effect h
  · exact absurd ⟨rfl, .inr (.inr rfl)⟩ hnf
  · have hnext : u.defaultNext = s.pc + BitVec.ofNat 8 (1 + i.mnemonic.format.operandCount) :=
      he.defaultNext_eq.trans (State.fetch_defaultNext hadm (mnemonic_of_decodedAtPc hdec).1)
    cases he with
    | call r | jmp r => exact (State.regAt_regByte s r).symm
    | ret => rfl
    | jeq r =>
      replace hnext : s.fetch.defaultNext = s.pc + 2 := hnext
      simp only [State.regAt_regByte, ← hnext]
      exact State.jeq_nextPc s.fetch _ _
    | jne r =>
      replace hnext : s.fetch.defaultNext = s.pc + 2 := hnext
      simp only [State.regAt_regByte, ← hnext]
      exact State.jne_nextPc s.fetch _ _
    | div0 | mod0 => exact absurd ⟨rfl, .inr (.inl rfl)⟩ hnf
    | _ => exact hnext

/-- Settles O31: E is still set when the jump runs, so JEQ's handler gives the register and JNE's none. -/
theorem stickyEqualDecidesEveryLaterJump : Obligations.StickyEqualDecidesEveryLaterJump := by
  rintro n s t u r rest hadm hE rfl hs h
  have hE' := State.after_keeps_flag hE n
  rw [← State.after_cfg n s] at hadm
  generalize State.after n s = t at *
  constructor
  · intro hdec
    rw [step_of_decodedAtPc hs hdec, (Effect.jeq r t.fetch).exec_eq, State.pcUpdate_eq] at h
    obtain rfl := Host.Outcome.next.inj h
    exact (State.jeq_nextPc t.fetch _ _).trans (if_pos hE')
  · intro hdec
    rw [step_of_decodedAtPc hs hdec, (Effect.jne r t.fetch).exec_eq, State.pcUpdate_eq] at h
    obtain rfl := Host.Outcome.next.inj h
    exact (State.jne_nextPc t.fetch _ _).trans ((if_neg (by simp [hE'])).trans
      (State.fetch_defaultNext hadm (mnemonic_of_decodedAtPc hdec).1))

/-! ### Halts -/

/-- Settles O22: the unknown opcode, the bad register byte, HLT and the arithmetic fault; every other handler leaves a
running core running. -/
theorem everyHaltRecordsItsCause : Obligations.EveryHaltRecordsItsCause := by
  intro s t hadm hs h ht
  obtain ⟨hh, -⟩ | ⟨-, ho, rfl⟩ | ⟨m, -, ho, hx⟩ := step_cases h
  · simp [hs] at hh
  · exact ⟨⟨rfl, rfl, rfl, rfl, rfl⟩, .inr (.inl ⟨rfl, rfl, OpMap.code_ne_of_absent ho, rfl⟩)⟩
  have hcode := OpMap.code_of_decode ho
  have hnext := State.fetch_defaultNext hadm ho
  obtain ⟨r, hr, rfl⟩ | ⟨-, u, n, he, rfl⟩ := exec_effect hx
  · exact ⟨⟨rfl, rfl, rfl, rfl, rfl⟩, .inr (.inr (.inr ⟨rfl, gt_of_bad hr, rfl⟩))⟩
  · obtain hst | ⟨hi, rfl, rfl⟩ | ⟨a, b, hi, -, rfl, rfl⟩ := he.status_cases
    · have hrun : u.halted = s.halted := congrArg Prod.fst hst
      simp [hrun, hs] at ht
    · obtain rfl := mnemonic_eq_of_toInstr hi
      exact ⟨⟨rfl, rfl, rfl, rfl, rfl⟩, .inl ⟨rfl, rfl, hcode.symm, hnext⟩⟩
    · refine ⟨⟨rfl, rfl, rfl, rfl, rfl⟩, .inr (.inr (.inl ⟨rfl, rfl, ?_⟩))⟩
      obtain hi | hi := hi <;> obtain rfl := mnemonic_eq_of_toInstr hi
      · exact ⟨.inl hcode.symm, hnext⟩
      · exact ⟨.inr hcode.symm, hnext⟩

/-- HLT always halts, DIV and MOD exactly when the divisor register holds 0, and nothing else does (R120). -/
theorem Effect.halted_iff (h : Effect i s u n) (hs : s.halted = false) :
    u.halted = true ↔ i = .hlt ∨ ∃ a b, (i = .div a b ∨ i = .mod a b) ∧ s.regAt b = 0 := by
  cases h with
  | hlt => simp
  | div a b _ _ hq => simpa [hs] using ne_zero_of_aluDiv hq
  | mod a b _ _ hr => simpa [hs] using ne_zero_of_aluMod hr
  | div0 a b _ hq => simpa using eq_zero_of_aluDiv hq
  | mod0 a b _ hr => simpa using eq_zero_of_aluMod hr
  | push r => simp [hs, pushReg_eq]
  | pop r => simp [hs, popReg_eq]
  | _ => simp [hs]

/-- Settles O23: on valid registers `exec` is the handler, and the PC update halts nothing. -/
theorem onlyHltAndDivisionByZeroHaltInExecute : Obligations.OnlyHltAndDivisionByZeroHaltInExecute := by
  intro i s t hw hs h
  obtain ⟨r, hr, -⟩ | ⟨-, u, n, he, rfl⟩ := exec_effect h
  · exact absurd hw (not_wellFormed_of_bad hr)
  · exact he.halted_iff hs

end Sys2Proof.Machine
end

section
/-! SUPPORT. Frames: which registers an instruction can write, and that `exec` leaves every other one, and every other
part of the state but PC, as it was (10_state.md R21). -/

namespace Sys2Proof

/-- The register bytes an instruction can write to when register `sp` is the stack pointer: the destination operand,
and the stack pointer for PUSH, POP and RET (10_state.md R21, R22). -/
def Instr.destinations (sp : Fin 8) : Instr → List Byte
  | .ldi r _ => [r]
  | .add a _ | .sub a _ | .mul a _ | .div a _ | .mod a _ | .and a _ | .or a _ | .xor a _ => [a]
  | .inc a | .dec a | .not a => [a]
  | .push _ | .ret => [regByte sp]
  | .pop r => [r, regByte sp]
  | .prn _ | .call _ | .jmp _ | .jeq _ | .jne _ | .hlt | .nop | .cmp _ _ => []

@[simp] theorem regByte_inj {r q : Fin 8} : regByte r = regByte q ↔ r = q := by
  simp [← BitVec.toNat_inj, Fin.ext_iff]

theorem regByte_ne_of_val_ne {q : Fin 8} {r : Byte} (h : q.val ≠ r.toNat) : regByte q ≠ r := by
  rintro rfl
  simp at h

namespace Machine

variable {i : Instr} {s t u : State} {n : Option Byte} {q : Fin 8}

/-! ### Registers -/

theorem Effect.reg_frame (h : Effect i s u n) (hq : regByte q ∉ i.destinations s.cfg.spIdx) : u.reg q = s.reg q := by
  cases h with
  | push r =>
    have hsp : s.cfg.spIdx ≠ q := by simpa [Instr.destinations, eq_comm] using hq
    simp [pushReg_eq, hsp]
  | pop r =>
    obtain ⟨hr, hsp⟩ : r ≠ q ∧ s.cfg.spIdx ≠ q := by simpa [Instr.destinations, eq_comm] using hq
    simp [popReg_eq, hr, hsp]
  | prn | call | jmp | jeq | jne | hlt | nop | cmp | div0 | mod0 => rfl
  | ret | ldi | add | sub | mul | div | mod | and | or | xor | inc | dec | not =>
    simp [Instr.destinations] at hq
    simp [Ne.symm hq]

theorem exec_reg_frame (h : exec i s = .next t) (hq : regByte q ∉ i.destinations s.cfg.spIdx) :
    t.x[q] = s.x[q] := by
  obtain ⟨r, -, rfl⟩ | ⟨-, u, n, he, rfl⟩ := exec_effect h
  · rfl
  · exact he.reg_frame hq

/-! ### The other parts -/

theorem exec_fl_of_ne_cmp (h : exec i s = .next t) (hi : i.mnemonic ≠ .cmp) : t.fl = s.fl :=
  (exec_fl_cases h).resolve_right fun ⟨_, _, e, _⟩ => hi (e ▸ rfl)

theorem exec_mem_of_ne_push (h : exec i s = .next t) (hi : i.mnemonic ≠ .push) : t.mem = s.mem :=
  (exec_mem_cases h).resolve_right fun ⟨_, e, _⟩ => hi (e ▸ rfl)

theorem exec_out_of_ne_prn (h : exec i s = .next t) (hi : i.mnemonic ≠ .prn) : t.out = s.out :=
  (exec_out_cases h).resolve_right fun ⟨_, e, _⟩ => hi (e ▸ rfl)

/-- On valid registers the run status stays but for HLT and a division by 0. -/
theorem exec_status (h : exec i s = .next t) (hw : WellFormed i = true) (hhlt : i.mnemonic ≠ .hlt)
    (hdiv : ∀ a b, i = .div a b ∨ i = .mod a b → s.regAt b ≠ 0) : t.status = s.status := by
  obtain ⟨r, hr, -⟩ | ⟨-, u, n, he, rfl⟩ := exec_effect h
  · exact absurd hw (not_wellFormed_of_bad hr)
  · obtain hst | ⟨rfl, -⟩ | ⟨a, b, hi, hb, -⟩ := he.status_cases
    · exact hst
    · exact absurd rfl hhlt
    · exact absurd (by simpa using hb) (hdiv _ _ hi)

/-! ### The three frames -/

/-- Settles O25: each of these instructions writes operand A alone, and only DIV and MOD can halt. -/
theorem registerResultFrame : Obligations.RegisterResultFrame := by
  intro r b v s t i hi h
  have hdest : i.destinations s.cfg.spIdx = [r] := by revert i; simp [Instr.destinations]
  obtain ⟨hcmp, hpush, hprn, hhlt⟩ :
      i.mnemonic ≠ .cmp ∧ i.mnemonic ≠ .push ∧ i.mnemonic ≠ .prn ∧ i.mnemonic ≠ .hlt := by
    revert i; simp [Instr.mnemonic]
  have hdiv : ∀ a b', i = .div a b' ∨ i = .mod a b' → i ∈ [Instr.div r b, .mod r b] ∧ b' = b := by
    rintro a b' (rfl | rfl) <;> simpa using hi
  refine ⟨fun q hq => exec_reg_frame h ?_, exec_fl_of_ne_cmp h hcmp, exec_ir h, exec_out_of_ne_prn h hprn,
    exec_cfg h, fun a => by rw [exec_mem_of_ne_push h hpush], fun hw hne => ?_, fun hw hb => ?_⟩
  · simpa [hdest] using regByte_ne_of_val_ne hq
  · exact exec_status h hw hhlt fun a b' e => absurd (hdiv a b' e).1 hne
  · exact exec_status h hw hhlt fun a b' e => (hdiv a b' e).2 ▸ hb

/-- Settles O26: none of these instructions writes a register. -/
theorem noRegisterResultFrame : Obligations.NoRegisterResultFrame := by
  intro r b s t i hi h
  have hdest : i.destinations s.cfg.spIdx = [] := by revert i; simp [Instr.destinations]
  have hpush : i.mnemonic ≠ .push := by revert i; simp [Instr.mnemonic]
  have hcmp : i ≠ .cmp r b → i.mnemonic ≠ .cmp := by revert i; simp [Instr.mnemonic]
  have hprn : i ≠ .prn r → i.mnemonic ≠ .prn := by revert i; simp [Instr.mnemonic]
  have hhlt : i ≠ .hlt → i.mnemonic ≠ .hlt := by revert i; simp [Instr.mnemonic]
  have hdiv : ∀ a b', ¬ (i = .div a b' ∨ i = .mod a b') := by
    rintro a b' (rfl | rfl) <;> simp at hi
  exact ⟨Vector.ext fun k hk => exec_reg_frame h (q := ⟨k, hk⟩) (by simp [hdest]), exec_ir h, exec_cfg h,
    fun a => by rw [exec_mem_of_ne_push h hpush], fun hne => exec_fl_of_ne_cmp h (hcmp hne),
    fun hne => exec_out_of_ne_prn h (hprn hne),
    fun hw hne => exec_status h hw (hhlt hne) fun a b' e => absurd e (hdiv a b')⟩

theorem State.sp_decSp (s : State) : s.decSp.sp = s.sp - 1 := by
  simp [State.sp_eq, aluDec_eq]

/-- The byte PUSH stores is the register's, read after SP went down (42_data_stack_output.md R175). -/
theorem pushReg_read_sp (r : Fin 8) (hw : s.mem.wf) : (pushReg r s).mem.read s.decSp.sp = s.decSp.reg r :=
  (Memory.read_write (m := s.decSp.mem) hw _ _ _).trans (if_pos rfl)

/-- Settles O27: SP and POP's operand are the only destinations, and PUSH's byte is the only one stored. -/
theorem stackFrame : Obligations.StackFrame := by
  intro r s t hwf i hi h
  obtain ⟨hcmp, hprn, hhlt⟩ : i.mnemonic ≠ .cmp ∧ i.mnemonic ≠ .prn ∧ i.mnemonic ≠ .hlt := by
    revert i; simp [Instr.mnemonic]
  have hpush : i ≠ .push r → i.mnemonic ≠ .push := by revert i; simp [Instr.mnemonic]
  have hdiv : ∀ a b, ¬ (i = .div a b ∨ i = .mod a b) := by
    rintro a b (rfl | rfl) <;> simp at hi
  have hdest : ∀ p ∈ i.destinations s.cfg.spIdx, p = regByte s.cfg.spIdx ∨ i = .pop r ∧ p = r := by
    clear h; revert i; simp [Instr.destinations]
  refine ⟨fun q hsp hr => exec_reg_frame h fun hmem => ?_, exec_fl_of_ne_cmp h hcmp, exec_ir h,
    exec_out_of_ne_prn h hprn, exec_cfg h, fun hw => exec_status h hw hhlt fun a b e => absurd e (hdiv a b),
    fun hne a => by rw [exec_mem_of_ne_push h (hpush hne)], fun _ a ha => ?_, ?_⟩
  · obtain e | ⟨hpop, e⟩ := hdest _ hmem
    · exact hsp (regByte_inj.1 e)
    · exact regByte_ne_of_val_ne (hr hpop) e
  · rw [State.sp_decSp] at ha
    obtain hm | ⟨_, -, hm⟩ := exec_mem_cases h
    · rw [hm]
    · rw [hm, Memory.read_write hwf, if_neg ha]
  · rintro rfl hr
    obtain ⟨r, rfl⟩ := regByte_of_lt hr
    rw [(Effect.push r s).exec_eq, State.pcUpdate_eq] at h
    obtain rfl := Host.Outcome.next.inj h
    rw [State.regAt_regByte]
    exact pushReg_read_sp r hwf

end Machine
end Sys2Proof
end

section
/-! SUPPORT. Noninterference: the run status and `out` are never read (10_state.md R36, R38), and SP_IDX matters to the
stack instructions alone (R22). An effect is carried over to the state with other values there. -/

namespace Sys2Proof.Machine

variable {i : Instr} {s t u : State} {n : Option Byte}

/-! ### Another run status and another `out` -/

theorem State.pcUpdate_set_status_out (u : State) (n : Option Byte) (h : Bool) (c : Cause) (v : Byte) (o : List Byte) :
    State.pcUpdate n { u with halted := h, cause := c, info := v, out := o } =
      { u.pcUpdate n with halted := h, cause := c, info := v, out := o } := by
  cases n <;> rfl

/-- An effect reads neither the run status nor `out`: what it appends to `out` is the same. -/
theorem Effect.set_status_out (he : Effect i s u n) (h : Bool) (c : Cause) (v : Byte) (o : List Byte) :
    ∃ h' c' v' new, u.out = s.out ++ new ∧
      Effect i { s with halted := h, cause := c, info := v, out := o }
        { u with halted := h', cause := c', info := v', out := o ++ new } n := by
  have quiet (h' : Bool) (c' : Cause) (v' : Byte) (hout : u.out = s.out)
      (he' : Effect i { s with halted := h, cause := c, info := v, out := o }
        { u with halted := h', cause := c', info := v', out := o } n) :
      ∃ h' c' v' new, u.out = s.out ++ new ∧
        Effect i { s with halted := h, cause := c, info := v, out := o }
          { u with halted := h', cause := c', info := v', out := o ++ new } n :=
    ⟨h', c', v', [], by rw [hout, List.append_nil], by rwa [List.append_nil]⟩
  cases he with
  | prn r => exact ⟨h, c, v, [s.reg r], rfl, .prn r _⟩
  | hlt => exact quiet true .hlt 0 rfl (.hlt _)
  | div a b _ w hq => exact quiet h c v rfl (.div a b _ w hq)
  | mod a b _ w hr => exact quiet h c v rfl (.mod a b _ w hr)
  | div0 a b _ hq => exact quiet true .arithmetic (s.reg b) rfl (.div0 a b _ hq)
  | mod0 a b _ hr => exact quiet true .arithmetic (s.reg b) rfl (.mod0 a b _ hr)
  | _ => exact quiet h c v rfl (by constructor)

/-- Settles O34: the decode error sets the whole run status, and an effect is carried over by
`Effect.set_status_out`. -/
theorem runStatusAndOutputAreNeverRead : Obligations.RunStatusAndOutputAreNeverRead := by
  intro i s t h c v o hx
  obtain ⟨r, hr, rfl⟩ | ⟨-, u, n, he, rfl⟩ := exec_cases hx
  · exact ⟨true, .badRegisterIndex, r, [], (List.append_nil _).symm, by rw [List.append_nil]; exact exec_of_bad hr _⟩
  · obtain ⟨h', c', v', new, hout, he'⟩ := he.set_status_out h c v o
    refine ⟨h', c', v', new, ?_, by rw [he'.exec_eq, State.pcUpdate_set_status_out]⟩
    rw [State.pcUpdate_eq]
    exact hout

/-! ### Another stack pointer index -/

theorem State.pcUpdate_set_spIdx (u : State) (n : Option Byte) (k : Fin 8) :
    State.pcUpdate n { u with cfg.spIdx := k } = { u.pcUpdate n with cfg.spIdx := k } := by
  cases n <;> rfl

theorem Effect.set_spIdx (h : Effect i s u n) (hstack : ∀ r, i ≠ .push r ∧ i ≠ .pop r) (hret : i ≠ .ret)
    (k : Fin 8) :
    Effect i { s with cfg.spIdx := k } { u with cfg.spIdx := k } n := by
  cases h with
  | push r => exact absurd rfl (hstack _).1
  | pop r => exact absurd rfl (hstack _).2
  | ret => exact absurd rfl hret
  | div a b _ v hq => exact .div a b _ v hq
  | mod a b _ v hr => exact .mod a b _ v hr
  | div0 a b _ hq => exact .div0 a b _ hq
  | mod0 a b _ hr => exact .mod0 a b _ hr
  | _ => constructor

/-- Settles O35: the operand check does not look at the configuration, and the other effects do not use SP. -/
theorem spIndexMattersOnlyToStackInstructions : Obligations.SpIndexMattersOnlyToStackInstructions := by
  intro i s t k hstack hret hx
  obtain ⟨r, hr, rfl⟩ | ⟨-, u, n, he, rfl⟩ := exec_cases hx
  · exact exec_of_bad hr _
  · rw [(he.set_spIdx hstack hret k).exec_eq, State.pcUpdate_set_spIdx]

end Sys2Proof.Machine
end

section
/-! SUPPORT. The rules of the single instructions in plain numbers: the ALU's results, the in-order PC, and the shapes
`PairRule`, `OneRule` and `NoneRule` from an effect (41_alu.md, 42_data_stack_output.md, 43_control.md). -/

namespace Sys2Proof.Machine

variable {i : Instr} {s u : State}

/-! ### The ALU in plain numbers -/

theorem aluAdd_eq_ofNat (va vb : Byte) : aluAdd va vb = BitVec.ofNat 8 (va.toNat + vb.toNat) := by
  rw [aluAdd, ← trunc8_natCast, Nat.cast_add]

theorem aluMul_eq_ofNat (va vb : Byte) : aluMul va vb = BitVec.ofNat 8 (va.toNat * vb.toNat) := by
  rw [aluMul, ← trunc8_natCast, Nat.cast_mul]

theorem aluNot_eq_ofNat (va : Byte) : aluNot va = BitVec.ofNat 8 (255 - va.toNat) := by
  apply BitVec.eq_of_toNat_eq
  simp only [aluNot, BitVec.toNat_not, BitVec.toNat_ofNat]
  omega

theorem aluAnd_eq_ofFnLE (va vb : Byte) :
    aluAnd va vb = BitVec.ofFnLE fun k : Fin 8 => va.getLsbD k && vb.getLsbD k := by
  ext k hk
  simp [aluAnd]

theorem aluOr_eq_ofFnLE (va vb : Byte) :
    aluOr va vb = BitVec.ofFnLE fun k : Fin 8 => va.getLsbD k || vb.getLsbD k := by
  ext k hk
  simp [aluOr]

theorem aluXor_eq_ofFnLE (va vb : Byte) :
    aluXor va vb = BitVec.ofFnLE fun k : Fin 8 => va.getLsbD k ^^ vb.getLsbD k := by
  ext k hk
  simp [aluXor]

/-- The division law of R144, by a divisor that is not 0: quotient and remainder fit in a byte. -/
theorem aluDiv_aluMod_of_ne_zero (va : Byte) {vb : Byte} (hb : vb ≠ 0) :
    ∃ q r, aluDiv va vb = some q ∧ aluMod va vb = some r ∧ va.toNat = q.toNat * vb.toNat + r.toNat ∧
      r.toNat < vb.toNat := by
  have hpos : 0 < vb.toNat := Nat.pos_of_ne_zero fun e => hb (BitVec.eq_of_toNat_eq e)
  have hq : (BitVec.ofNat 8 (va.toNat / vb.toNat)).toNat = va.toNat / vb.toNat :=
    Nat.mod_eq_of_lt ((Nat.div_le_self _ _).trans_lt va.isLt)
  have hr : (BitVec.ofNat 8 (va.toNat % vb.toNat)).toNat = va.toNat % vb.toNat :=
    Nat.mod_eq_of_lt ((Nat.mod_le _ _).trans_lt va.isLt)
  refine ⟨_, _, by rw [aluDiv_eq, if_neg hb], by rw [aluMod_eq, if_neg hb], ?_, ?_⟩
  · rw [hq, hr, Nat.div_add_mod']
  · rw [hr]
    exact Nat.mod_lt _ hpos

/-! ### From an effect to the answer of `exec` -/

theorem State.defaultNext_eq_inOrderPc (s : State) : s.defaultNext = s.inOrderPc := by
  rw [State.defaultNext, State.inOrderPc, opcodeCount_eq, ← trunc8_natCast]
  push_cast
  rfl

theorem Effect.exec_inOrder (h : Effect i s u none) : exec i s = .next { u with pc := s.inOrderPc } := by
  rw [h.exec_eq, State.pcUpdate_eq, h.defaultNext_eq, State.defaultNext_eq_inOrderPc]
  rfl

theorem Effect.exec_writeReg {r : Fin 8} {v w : Byte} (h : Effect i s (s.writeReg r v) none) (hv : v = w) :
    exec i s = .next { s with x := s.x.set r w, pc := s.inOrderPc } :=
  hv ▸ h.exec_inOrder

theorem exec_of_gt {r : Byte} {rest : List Byte} (hops : i.registerOperands = r :: rest) (hr : 7 < r.toNat)
    (s : State) : exec i s = .next (s.badIndexHalt r) :=
  exec_of_bad (by simp [Instr.firstBadIndex, hops, hr]) s

/-- Format F2RR: the register bytes are checked in order, operand A first. -/
theorem pairRule_of_exec {m : Mnemonic} {ctor : Byte → Byte → Instr} {handler : Fin 8 → Fin 8 → State → State}
    (hfmt : m.format = .f2rr) (henc : ∀ om a b, encode om (ctor a b) = [om.code m, a, b])
    (hops : ∀ a b, (ctor a b).registerOperands = [a, b])
    (hexec : ∀ a b s, exec (ctor (regByte a) (regByte b)) s = .next (handler a b s)) : PairRule m ctor handler := by
  refine ⟨⟨hfmt, henc⟩, hexec, fun a b s ha => exec_of_gt (hops a b) ha s, fun a b s ha hb => ?_⟩
  have hbad : (ctor a b).firstBadIndex = some b := by
    simp [Instr.firstBadIndex, hops, hb, show ¬ 7 < a.toNat by omega]
  exact exec_of_bad hbad s

/-- Format F1R. -/
theorem oneRule_of_exec {m : Mnemonic} {ctor : Byte → Instr} {handler : Fin 8 → State → State}
    (hfmt : m.format = .f1r) (henc : ∀ om r, encode om (ctor r) = [om.code m, r])
    (hops : ∀ r, (ctor r).registerOperands = [r])
    (hexec : ∀ r s, exec (ctor (regByte r)) s = .next (handler r s)) : OneRule m ctor handler :=
  ⟨⟨hfmt, henc⟩, hexec, fun r s hr => exec_of_gt (hops r) hr s⟩

/-! ### The arithmetic and logic instructions -/

/-- Settles O1: the sum, by the ALU's ADD in plain numbers. -/
theorem addWritesTheSumModulo256 : Obligations.AddWritesTheSumModulo256 :=
  pairRule_of_exec rfl (fun _ _ _ => rfl) (fun _ _ => rfl) fun a b s =>
    (Effect.add a b s).exec_writeReg (aluAdd_eq_ofNat _ _)

/-- Settles O2: the ALU's SUB is the reduced difference as written, its MUL the reduced product. -/
theorem subAndMulWriteTheResultModulo256 : Obligations.SubAndMulWriteTheResultModulo256 :=
  ⟨pairRule_of_exec rfl (fun _ _ _ => rfl) (fun _ _ => rfl) fun a b s => (Effect.sub a b s).exec_writeReg rfl,
   pairRule_of_exec rfl (fun _ _ _ => rfl) (fun _ _ => rfl) fun a b s =>
    (Effect.mul a b s).exec_writeReg (aluMul_eq_ofNat _ _)⟩

/-- Settles O3: the division law of the ALU's results. -/
theorem divAndModWriteQuotientAndRemainder : Obligations.DivAndModWriteQuotientAndRemainder := by
  intro a b s hb
  obtain ⟨q, r, hq, hr, hlaw, hlt⟩ := aluDiv_aluMod_of_ne_zero (s.reg a) fun e : s.reg b = 0 =>
    hb (congrArg BitVec.toNat e)
  exact ⟨q, r, hlaw, hlt, (Effect.div a b s q hq).exec_writeReg rfl, (Effect.mod a b s r hr).exec_writeReg rfl⟩

/-- Settles O4: without a result the fault is taken with the divisor, which is 0, and PC advances. -/
theorem divisionByZeroHaltsWithArithmeticFault : Obligations.DivisionByZeroHaltsWithArithmeticFault := by
  intro a b s hb i hi
  replace hb : s.reg b = 0 := hb
  have hfault : s.raise (.arithmeticFault (s.reg b)) = s.halt .arithmetic 0 := by rw [hb]; rfl
  have he : Effect i s (s.halt .arithmetic 0) none := by
    obtain rfl | rfl : i = .div (regByte a) (regByte b) ∨ i = .mod (regByte a) (regByte b) := by simpa using hi
    · exact hfault ▸ .div0 a b s (by rw [aluDiv_eq, if_pos hb])
    · exact hfault ▸ .mod0 a b s (by rw [aluMod_eq, if_pos hb])
  exact he.exec_inOrder

/-- Settles O5: the ALU's INC, DEC and NOT in plain numbers. -/
theorem incDecAndNotReplaceTheRegister : Obligations.IncDecAndNotReplaceTheRegister :=
  ⟨oneRule_of_exec rfl (fun _ _ => rfl) (fun _ => rfl) fun a s =>
    (Effect.inc a s).exec_writeReg (aluInc_eq_ofNat _),
   oneRule_of_exec rfl (fun _ _ => rfl) (fun _ => rfl) fun a s => (Effect.dec a s).exec_writeReg rfl,
   oneRule_of_exec rfl (fun _ _ => rfl) (fun _ => rfl) fun a s =>
    (Effect.not a s).exec_writeReg (aluNot_eq_ofNat _)⟩

/-- Settles O6: the ALU's AND, OR and XOR bit by bit. -/
theorem andOrAndXorCombineBitByBit : Obligations.AndOrAndXorCombineBitByBit :=
  ⟨pairRule_of_exec rfl (fun _ _ _ => rfl) (fun _ _ => rfl) fun a b s =>
    (Effect.and a b s).exec_writeReg (aluAnd_eq_ofFnLE _ _),
   pairRule_of_exec rfl (fun _ _ _ => rfl) (fun _ _ => rfl) fun a b s =>
    (Effect.or a b s).exec_writeReg (aluOr_eq_ofFnLE _ _),
   pairRule_of_exec rfl (fun _ _ _ => rfl) (fun _ _ => rfl) fun a b s =>
    (Effect.xor a b s).exec_writeReg (aluXor_eq_ofFnLE _ _)⟩

/-- Settles O7: the mask a comparison selects is the one written out. -/
theorem cmpOrsTheRelationIntoFlags : Obligations.CmpOrsTheRelationIntoFlags :=
  pairRule_of_exec rfl (fun _ _ _ => rfl) (fun _ _ => rfl) fun a b s => (Effect.cmp a b s).exec_inOrder

/-! ### Data, stack and output -/

/-- Settles O8: the literal is the value written, and only the first byte is checked. -/
theorem ldiLoadsTheLiteral : Obligations.LdiLoadsTheLiteral :=
  ⟨⟨rfl, fun _ _ _ => rfl⟩, fun r v s => (Effect.ldi r v s).exec_writeReg rfl, fun _ _ s hr => exec_of_gt rfl hr s⟩

/-- Settles O9: PRN's effect is one `emit`. -/
theorem prnAppendsTheRegisterToOut : Obligations.PrnAppendsTheRegisterToOut :=
  oneRule_of_exec rfl (fun _ _ => rfl) (fun _ => rfl) fun r s => (Effect.prn r s).exec_inOrder

/-- Settles O10: `pushReg` is the two statements in this order. -/
theorem pushDecrementsThenStores : Obligations.PushDecrementsThenStores :=
  oneRule_of_exec rfl (fun _ _ => rfl) (fun _ => rfl) fun r s => (Effect.push r s).exec_inOrder

/-- Settles O11: `popReg` is the two statements in this order, SP's increment by `State.incSp_eq_set`. -/
theorem popLoadsThenIncrements : Obligations.PopLoadsThenIncrements := by
  refine oneRule_of_exec rfl (fun _ _ => rfl) (fun _ => rfl) fun r s => ?_
  rw [(Effect.pop r s).exec_inOrder, popReg, State.incSp_eq_set]
  rfl

/-! ### Control -/

/-- Settles O12: CALL and JMP have one effect, and their arms are the same operand check and handler. -/
theorem callAndJmpGoToTheRegister : Obligations.CallAndJmpGoToTheRegister :=
  ⟨oneRule_of_exec rfl (fun _ _ => rfl) (fun _ => rfl) fun r s => (Effect.call r s).exec_eq,
   oneRule_of_exec rfl (fun _ _ => rfl) (fun _ => rfl) fun r s => (Effect.jmp r s).exec_eq, fun _ _ => rfl⟩

/-- Settles O14: the handlers' next PC, `State.jeq_nextPc` and `State.jne_nextPc`. -/
theorem jeqAndJneBranchOnEqual : Obligations.JeqAndJneBranchOnEqual := by
  constructor
  · refine oneRule_of_exec rfl (fun _ _ => rfl) (fun _ => rfl) fun r s => ?_
    rw [(Effect.jeq r s).exec_eq, State.pcUpdate_eq, State.jeq_nextPc, State.defaultNext_eq_inOrderPc]
    rfl
  · refine oneRule_of_exec rfl (fun _ _ => rfl) (fun _ => rfl) fun r s => ?_
    rw [(Effect.jne r s).exec_eq, State.pcUpdate_eq, State.jne_nextPc, State.defaultNext_eq_inOrderPc]
    rfl

/-- Settles O15: HLT's effect is `stop()`. -/
theorem hltStopsAndAdvances : Obligations.HltStopsAndAdvances :=
  ⟨⟨rfl, fun _ => rfl⟩, fun s => (Effect.hlt s).exec_inOrder⟩

/-- Settles O16: NOP's effect is none; in a step the default advance is 1, NOP's format having no operand. -/
theorem nopChangesOnlyIrAndPc : Obligations.NopChangesOnlyIrAndPc := by
  refine ⟨⟨⟨rfl, fun _ => rfl⟩, fun s => (Effect.nop s).exec_inOrder⟩, fun s hadm hs hop => ?_⟩
  have ho : s.cfg.opmap.decode (s.mem.read s.pc) = some .nop := hop ▸ hadm.decode_code .nop
  rw [step_of_decode hs ho, Mnemonic.toInstr, (Effect.nop s.fetch).exec_eq, State.pcUpdate_eq, ← hop]
  exact congrArg (fun pc => Host.Outcome.next { s.fetch with pc }) (State.fetch_defaultNext hadm ho)

end Sys2Proof.Machine
end

section
/-! SUPPORT. Sequences of two instructions or steps: PUSH then POP, an operation then its inverse, PUSH then the fetch of
the stored byte (42_data_stack_output.md R181, 41_alu.md R161, 20_memory.md R68). -/

namespace Sys2Proof.Machine

variable {i j : Instr} {s t u : State}

theorem Effect.next_eq {n : Option Byte} (he : Effect i s u n) (h : exec i s = .next t) : t = u.pcUpdate n := by
  rw [he.exec_eq] at h
  exact (Host.Outcome.next.inj h).symm

/-! ### PUSH then POP -/

/-- Settles O40: POP reads the cell PUSH wrote, at the address SP still holds. -/
theorem pushThenPopCopiesAndRestoresSp : Obligations.PushThenPopCopiesAndRestoresSp := by
  intro ra rb s t u hw ht hu
  obtain rfl := (Effect.push ra s).next_eq ht
  obtain rfl := (Effect.pop rb _).next_eq hu
  change
    (ra ≠ s.cfg.spIdx → rb ≠ s.cfg.spIdx →
      State.reg _ rb = s.reg ra ∧ State.reg _ s.cfg.spIdx = s.sp ∧ Memory.read _ (s.sp - 1) = s.reg ra) ∧
    (ra = s.cfg.spIdx → rb = s.cfg.spIdx →
      State.reg _ s.cfg.spIdx = s.sp ∧ Memory.read _ (s.sp - 1) = s.sp - 1)
  constructor
  · intro hra hrb
    simp [pushReg_eq, popReg_eq, State.sp_eq, Memory.read_write hw, hra.symm, hrb, hrb.symm]
  · rintro rfl rfl
    simp [pushReg_eq, popReg_eq, State.sp_eq, Memory.read_write hw]

/-! ### Inverse operations -/

/-- Two instructions that write one register one after the other restore the register file exactly when the second
writes the value the register had. -/
theorem x_eq_iff_of_writes {r : Fin 8} {v w : Byte} (h1 : Effect i s (s.writeReg r v) none)
    (h2 : Effect j t (t.writeReg r w) none) (ht : exec i s = .next t) (hu : exec j t = .next u) :
    u.x = s.x ↔ w = s.reg r := by
  have htx : t.x = s.x.set r v := by rw [h1.next_eq ht, State.pcUpdate_eq]; rfl
  have hux : u.x = s.x.set r w := by
    rw [h2.next_eq hu, State.pcUpdate_eq]
    exact (congrArg (·.set r w) htx).trans (Vector.set_set ..)
  rw [hux]
  constructor
  · intro e
    simpa [State.reg] using congrArg (·[r]) e
  · rintro rfl
    exact Vector.set_getElem_self ..

theorem reg_of_write {r q : Fin 8} {v : Byte} (h : Effect i s (s.writeReg r v) none) (ht : exec i s = .next t) :
    t.reg q = if r = q then v else s.reg q := by
  rw [h.next_eq ht, State.reg_pcUpdate, State.reg_writeReg]

/-- The exact condition of R161, on the ALU's results: the product must not be narrowed. -/
theorem aluDiv_aluMul_eq_iff (va : Byte) {vb : Byte} (hb : vb.toNat ≠ 0) :
    aluDiv (aluMul va vb) vb = some va ↔ va.toNat * vb.toNat ≤ 255 := by
  have hne : vb ≠ 0 := fun e => hb (congrArg BitVec.toNat e)
  have hpos : 0 < vb.toNat := Nat.pos_of_ne_zero hb
  have hprod : (aluMul va vb).toNat = va.toNat * vb.toNat % 256 := by rw [aluMul_eq_ofNat, BitVec.toNat_ofNat]
  have hquot : (va.toNat * vb.toNat % 256 / vb.toNat) % 256 = va.toNat * vb.toNat % 256 / vb.toNat :=
    Nat.mod_eq_of_lt ((Nat.div_le_self _ _).trans_lt (Nat.mod_lt _ (by decide)))
  rw [aluDiv_eq, if_neg hne, Option.some_inj, ← BitVec.toNat_inj, BitVec.toNat_ofNat, hprod, hquot]
  constructor
  · intro e
    have hle := Nat.div_mul_le_self (va.toNat * vb.toNat % 256) vb.toNat
    rw [e] at hle
    omega
  · intro hle
    rw [Nat.mod_eq_of_lt (by omega), Nat.mul_div_cancel _ hpos]

/-- Settles O41: each pair writes `x[a]` twice, and the second value is the first operand again. -/
theorem inverseOperationsRestoreTheRegister : Obligations.InverseOperationsRestoreTheRegister := by
  intro a b s t u hab
  constructor
  · intro p hp ht hu
    simp only [List.mem_cons, List.not_mem_nil, or_false] at hp
    obtain rfl | rfl | rfl | rfl | rfl | rfl := hp
    · refine (x_eq_iff_of_writes (.add a b s) (.sub a b t) ht hu).2 ?_
      simp [reg_of_write (.add a b s) ht, hab, aluAdd_eq, aluSub_eq]
    · refine (x_eq_iff_of_writes (.sub a b s) (.add a b t) ht hu).2 ?_
      simp [reg_of_write (.sub a b s) ht, hab, aluAdd_eq, aluSub_eq]
    · refine (x_eq_iff_of_writes (.xor a b s) (.xor a b t) ht hu).2 ?_
      simp [reg_of_write (.xor a b s) ht, hab, aluXor]
    · refine (x_eq_iff_of_writes (.inc a s) (.dec a t) ht hu).2 ?_
      simp [reg_of_write (.inc a s) ht, aluInc_eq, aluDec_eq]
    · refine (x_eq_iff_of_writes (.dec a s) (.inc a t) ht hu).2 ?_
      simp [reg_of_write (.dec a s) ht, aluInc_eq, aluDec_eq]
    · refine (x_eq_iff_of_writes (.not a s) (.not a t) ht hu).2 ?_
      simp [reg_of_write (.not a s) ht, aluNot]
  · intro ht hu hb
    have hta : t.reg a = aluMul (s.reg a) (s.reg b) := by simp [reg_of_write (.mul a b s) ht]
    have htb : t.reg b = s.reg b := by simp [reg_of_write (.mul a b s) ht, hab]
    have hne : t.reg b ≠ 0 := fun e => hb (congrArg BitVec.toNat (htb.symm.trans e))
    obtain ⟨q, -, hq, -⟩ := aluDiv_aluMod_of_ne_zero (t.reg a) hne
    rw [x_eq_iff_of_writes (.mul a b s) (.div a b t q hq) ht hu, ← Option.some_inj, ← hq, hta, htb]
    exact aluDiv_aluMul_eq_iff (s.reg a) hb

/-! ### PUSH then the next fetch -/

/-- Settles O42: no byte is buffered, so the next step reads the cell PUSH wrote. -/
theorem pushedByteIsWhatTheNextStepFetches : Obligations.PushedByteIsWhatTheNextStepFetches := by
  intro r rest s t u hw hs hdec ht hpc hu
  rw [step_of_decodedAtPc hs hdec, (Effect.push r s.fetch).exec_eq, State.pcUpdate_eq] at ht
  obtain rfl := Host.Outcome.next.inj ht
  rw [step_ir hu hs, hpc]
  exact pushReg_read_sp (s := s.fetch) r hw

end Sys2Proof.Machine
end

section
/-! SUPPORT. The host's side: a word placed at PC, reset, poke, the memory that holds a given content, the reset table
and the default map (20_memory.md R61, R62, 70_reset_and_hazards.md R240, 30_encoding.md R92). -/

namespace Sys2Proof.Machine

variable {s : State}

/-! ### A word placed at PC -/

theorem decode_tableBytes {nbits w : Nat} {i : Instr} (h : decodeTableWord nbits w = some i) :
    ∃ rest, decode OpMap.standard
      [(tableBytes nbits w).1, (tableBytes nbits w).2.1, (tableBytes nbits w).2.2] = .instr i rest := by
  unfold decodeTableWord at h
  cases hd : decode OpMap.standard
      [(tableBytes nbits w).1, (tableBytes nbits w).2.1, (tableBytes nbits w).2.2] with
  | instr j rest =>
    simp only [hd, Option.some_inj] at h
    exact ⟨rest, by rw [h]⟩
  | rejected why => simp [hd] at h

/-- The three cells at PC are different cells, so what is stored there is what the decoder reads. -/
theorem State.decodedAtPc_storeAtPc (bytes : Byte × Byte × Byte) (hw : s.mem.wf) :
    (s.storeAtPc bytes).decodedAtPc = decode s.cfg.opmap [bytes.1, bytes.2.1, bytes.2.2] := by
  have h01 : s.pc ≠ s.pc + 1 := by bv_omega
  have h02 : s.pc ≠ s.pc + 2 := by bv_omega
  have h12 : s.pc + 1 ≠ s.pc + 2 := by bv_omega
  have hw1 := Memory.write_wf hw s.pc bytes.1
  have hw2 := Memory.write_wf hw1 (s.pc + 1) bytes.2.1
  simp only [State.decodedAtPc, State.storeAtPc, trunc8_add_one, trunc8_add_two, State.writeByte_mem,
    State.writeByte_pc, State.writeByte_cfg, Memory.read_write hw2, Memory.read_write hw1, Memory.read_write hw,
    h01, h02, h12, ↓reduceIte]

@[simp] theorem State.awake_mem (s : State) : s.awake.mem = s.mem := by
  unfold State.awake
  split <;> rfl

@[simp] theorem State.awake_halted (s : State) : s.awake.halted = false := by
  unfold State.awake
  split
  · rfl
  · exact Bool.eq_false_iff.2 ‹_›

/-- Settles O50: the placed state is running, and the decoder reads the word at its PC. -/
theorem fetchWordRunsItsInstruction : Obligations.FetchWordRunsItsInstruction := by
  intro s nbits w i hw hi
  obtain ⟨rest, hdec⟩ := decode_tableBytes hi
  refine step_of_decodedAtPc (rest := rest) s.awake_halted ?_
  exact (State.decodedAtPc_storeAtPc (s := { s.awake with cfg.opmap := OpMap.standard }) _
    (by simpa using hw)).trans hdec

/-! ### Reset and poke -/

/-- Settles O53: a poke leaves the run status, and a trigger of a halted core leaves the whole state. -/
theorem onlyResetLeavesTheHaltedState : Obligations.OnlyResetLeavesTheHaltedState := by
  intro p q e h
  cases e with
  | reset =>
    obtain rfl := Option.some.inj h
    exact ⟨fun _ => ⟨rfl, rfl⟩, fun _ _ => rfl⟩
  | poke a v =>
    refine ⟨nofun, fun hp hq => ?_⟩
    cases ht : p.triggered <;> simp [Platform.event, ht] at h
    simp [← h, State.poke, hp] at hq
  | trigger =>
    refine ⟨nofun, fun hp hq => ?_⟩
    simp [Platform.event, step_of_halted hp] at h
    simp [← h, hp] at hq

/-- Settles O54: a poke is one write to memory, admitted by the bit beside the core. -/
theorem pokeStoresBeforeTheFirstTrigger : Obligations.PokeStoresBeforeTheFirstTrigger := by
  intro p a v hw
  refine ⟨fun ht => by simp [Platform.event, ht], fun ht => ⟨p.core.mem.write a v, ?_, ?_, fun b hb => ?_⟩⟩
  · simp [Platform.event, ht, State.poke, State.writeByte]
  · rw [Memory.read_write hw, if_pos rfl]
  · rw [Memory.read_write hw, if_neg hb]

/-! ### The canonical memory of a content -/

/-- The canonical memory that reads as `f`: the cells that differ from an unlisted one, by rising address. -/
def Memory.ofContent (f : Byte → Byte) : Memory :=
  ((List.range 256).map fun n => (n, f (BitVec.ofNat 8 n))).filter fun c => decide (c.2 ≠ Config.unlistedByte)

theorem Memory.mem_ofContent {f : Byte → Byte} {c : Host.Cell} :
    c ∈ Memory.ofContent f ↔ c.1 < 256 ∧ c.2 = f (BitVec.ofNat 8 c.1) ∧ c.2 ≠ Config.unlistedByte := by
  obtain ⟨n, w⟩ := c
  simp only [Memory.ofContent, List.mem_filter, List.mem_map, List.mem_range, Prod.mk.injEq, decide_eq_true_eq]
  constructor
  · rintro ⟨⟨n, hn, rfl, rfl⟩, hw⟩
    exact ⟨hn, rfl, hw⟩
  · rintro ⟨hn, rfl, hw⟩
    exact ⟨⟨n, hn, rfl, rfl⟩, hw⟩

theorem Memory.ofContent_wf (f : Byte → Byte) : (Memory.ofContent f).wf := by
  refine ⟨?_, fun c hc => ?_⟩
  · have hrising : List.Pairwise (fun c d : Host.Cell => c.1 < d.1)
        ((List.range 256).map fun n => (n, f (BitVec.ofNat 8 n))) := List.pairwise_map.2 List.pairwise_lt_range
    exact hrising.filter _
  · obtain ⟨hlt, -, hne⟩ := Memory.mem_ofContent.1 hc
    exact ⟨hlt, hne⟩

theorem Memory.read_ofContent (f : Byte → Byte) (a : Byte) : (Memory.ofContent f).read a = f a := by
  have ha : BitVec.ofNat 8 a.toNat = a := by simp
  by_cases hf : f a = Config.unlistedByte
  · rw [hf]
    refine Memory.lookup_of_not_mem fun c hc e => ?_
    obtain ⟨-, hval, hne⟩ := Memory.mem_ofContent.1 hc
    rw [e, ha] at hval
    exact hne (hval.trans hf)
  · have hmem : (a.toNat, f a) ∈ Memory.ofContent f := Memory.mem_ofContent.2 ⟨a.isLt, by rw [ha], hf⟩
    exact Memory.lookup_of_mem (Memory.ofContent_wf f).1 hmem

/-- A canonical memory lists exactly the cells whose reading is not the unlisted byte. -/
theorem Memory.mem_iff_read {m : Memory} (hw : m.wf) {c : Host.Cell} :
    c ∈ m ↔ c.1 < 256 ∧ c.2 = m.read (BitVec.ofNat 8 c.1) ∧ c.2 ≠ Config.unlistedByte := by
  have hread : c.1 < 256 → m.read (BitVec.ofNat 8 c.1) = m.lookup c.1 := fun hlt =>
    congrArg m.lookup (Nat.mod_eq_of_lt hlt)
  constructor
  · intro hc
    obtain ⟨hlt, hne⟩ := hw.2 c hc
    exact ⟨hlt, by rw [hread hlt, Memory.lookup_of_mem hw.1 hc], hne⟩
  · rintro ⟨hlt, hval, hne⟩
    rw [hread hlt] at hval
    obtain ⟨d, hd, e⟩ : ∃ d ∈ m, d.1 = c.1 := by
      by_contra hno
      exact hne (hval.trans (Memory.lookup_of_not_mem fun d hd e => hno ⟨d, hd, e⟩))
    have hdc : d = c := Prod.ext e (by rw [← Memory.lookup_of_mem hw.1 hd, e, hval])
    exact hdc ▸ hd

/-- Canonical memories with equal readings are equal: both are the one sorted list of the same cells. -/
theorem Memory.eq_of_read_eq {m m' : Memory} (hw : m.wf) (hw' : m'.wf) (h : ∀ a, m.read a = m'.read a) : m = m' := by
  have hmem : ∀ c, c ∈ m ↔ c ∈ m' := fun c => by rw [Memory.mem_iff_read hw, Memory.mem_iff_read hw', h]
  have hnodup : ∀ {l : Memory}, l.wf → l.Nodup := fun hl => hl.1.imp fun hlt e => hlt.ne (congrArg Prod.fst e)
  refine List.Perm.eq_of_pairwise (fun c d _ _ hcd hdc => absurd hcd hdc.asymm) hw.1 hw'.1 ?_
  exact (List.perm_ext_iff_of_nodup (hnodup hw) (hnodup hw')).2 hmem

/-- Settles O55: `Memory.ofContent` is one such memory, and canonical memories with its readings equal it. -/
theorem everyMemoryContentHasOneCanonicalForm : Obligations.EveryMemoryContentHasOneCanonicalForm :=
  fun f => ⟨Memory.ofContent f, ⟨Memory.ofContent_wf f, Memory.read_ofContent f⟩, fun _ ⟨hw, hread⟩ =>
    Memory.eq_of_read_eq hw (Memory.ofContent_wf f) fun a => (hread a).trans (Memory.read_ofContent f a).symm⟩

/-! ### The reset table and the default map -/

/-- Settles O51: each part as `State.initial` writes it; the registers by `State.reg_initial`. -/
theorem initialStateIsTheResetTable : Obligations.InitialStateIsTheResetTable := by
  intro cfg m
  refine ⟨(State.reg_initial cfg m cfg.spIdx).trans (if_pos rfl), fun r hr => ?_, rfl, rfl, rfl, rfl, rfl, rfl, rfl,
    rfl, rfl⟩
  exact (State.reg_initial cfg m r).trans (if_neg hr.symm)

/-- Settles O52: the reset state is the reset table under the defaults, by definition. -/
theorem resetStateUsesTheDefaults : Obligations.ResetStateUsesTheDefaults :=
  ⟨rfl, State.reg_initial Config.standard [] 7, rfl, rfl⟩

/-- Settles O47: the 23 bytes of the default map, compared. -/
theorem defaultOpcodeMapIsAdmissible : Obligations.DefaultOpcodeMapIsAdmissible := by
  unfold Obligations.DefaultOpcodeMapIsAdmissible
  decide

/-- Settles O48: each word decoded by the model. -/
theorem tableWordsDecodeToTheirInstructions : Obligations.TableWordsDecodeToTheirInstructions := by
  unfold Obligations.TableWordsDecodeToTheirInstructions
  decide

end Sys2Proof.Machine
end
